-- ==== Sys2Proof/Word.lean ====
section
/-!
DEFINITION. The bit-string types of WISC-S18: `00_scope.md` R7 (16-bit data path, 16-bit byte
addresses) and R10 (bit 15 is the most significant bit, bit 0 the least).
-/

namespace Sys2Proof

/-- A register, an address, an instruction word or a halfword of memory (R7, R10). -/
abbrev Word := BitVec 16

/-- One byte of a byte-addressed memory (`20_memory.md` R40). -/
abbrev Byte := BitVec 8

/-- A 4-bit register number, `$0` to `$15` (`10_state.md` R20). -/
abbrev RegNum := BitVec 4

end Sys2Proof
end

