-- ==== Sys2Proof/Config.lean ====
section
/-!
DEFINITION. What the source leaves open: the named parameters of `00_scope.md` R8, as the fields of
one plain-data record, and the free values (R35, R36), as constants with no body.
`IMEM` and `DMEM_INIT`, the other two parameters of R8, are the contents of the two memories of
`Machine.State`.
-/

namespace Sys2Proof

/-- `BYTE_ORDER` (`20_memory.md` R48): which byte of an aligned halfword stands at the even address.
No rule of the machine reads it. -/
inductive ByteOrder where
  /-- Bits 7:0 at the even address, bits 15:8 at the odd one. -/
  | little
  /-- Bits 15:8 at the even address, bits 7:0 at the odd one. -/
  | big
  deriving DecidableEq, Repr

/-- The open parameters of `00_scope.md` R8. No instruction writes them; a claim about every state is
a claim about every setting. -/
structure Config where
  /-- `BSHIFT`: by how much the sign-extended offset of B is shifted left (`30_encoding.md` R73). -/
  bshift : Fin 2
  /-- `RED_SIGNED`: whether RED reads its eight 4-bit fields as signed (`41_compute.md` R104, R105). -/
  redSigned : Bool
  /-- `RESET_GPR`: slot `i` is register `$(i+1)`; `none` is the setting `unspecified` (R35). -/
  resetGpr : Vector (Option Word) 15
  /-- `RESET_FLAG` of Z; `none` is `unspecified` (R35). -/
  resetZ : Option Bool
  /-- `RESET_FLAG` of V; `none` is `unspecified` (R35). -/
  resetV : Option Bool
  /-- `RESET_FLAG` of N; `none` is `unspecified` (R35). -/
  resetN : Option Bool
  /-- `BYTE_ORDER` (`20_memory.md` R48). -/
  byteOrder : ByteOrder
  deriving DecidableEq, Repr

/-- Free value: what the `n`-th reset leaves in the register of slot `i` (`$(i+1)`) when its
`RESET_GPR` is `unspecified` (`10_state.md` R35). DESIGN CHOICE, log 4, safe: nothing constrains it. -/
opaque Config.freeResetGpr : (n i : Nat) → Word

/-- Free value: what the `n`-th reset leaves in Z when its `RESET_FLAG` is `unspecified` (R35). -/
opaque Config.freeResetZ : (n : Nat) → Bool

/-- Free value: what the `n`-th reset leaves in V when its `RESET_FLAG` is `unspecified` (R35). -/
opaque Config.freeResetV : (n : Nat) → Bool

/-- Free value: what the `n`-th reset leaves in N when its `RESET_FLAG` is `unspecified` (R35). -/
opaque Config.freeResetN : (n : Nat) → Bool

/-- Free value: what the halfword of data memory at even address `a` holds while nothing has been
stored there and the host has supplied nothing (`10_state.md` R36: arbitrary, drawn once, stable).
DESIGN CHOICE, log 7, safe: nothing constrains it. -/
opaque Config.unwrittenHalf : (a : Word) → Word

end Sys2Proof
end

