-- ==== Sys2Proof/Syntax.lean ====
section
/-!
DEFINITION. The sixteen instructions of `30_encoding.md` R69, one constructor per row of
`spec/opcode_table.json`, with the fields of R61 to R68 under the names of `00_scope.md` R13; the
eight conditions of R74; and the images a host supplies (`00_scope.md` R8, `IMEM`, `DMEM_INIT`).
-/

namespace Sys2Proof

/-- The branch conditions of B and BR (`30_encoding.md` R74), in the order of `ccc` 000 to 111. -/
inductive Cond where
  | neq | eq | gt | lt | gte | lte | ovfl | uncond
  deriving DecidableEq, Repr

/-- The instructions (`30_encoding.md` R69), in the order of their opcodes. -/
inductive Instr where
  | add (rd rs rt : RegNum)
  | sub (rd rs rt : RegNum)
  | red (rd rs rt : RegNum)
  | xor (rd rs rt : RegNum)
  /-- `imm4` is the unsigned shift amount 0 to 15 (R70). -/
  | sll (rd rs : RegNum) (imm4 : BitVec 4)
  | sra (rd rs : RegNum) (imm4 : BitVec 4)
  | ror (rd rs : RegNum) (imm4 : BitVec 4)
  | paddsb (rd rs rt : RegNum)
  /-- `rt` is the register loaded, `rs` the base, `off4` a signed count of halfwords (R63, R71). -/
  | lw (rt rs : RegNum) (off4 : BitVec 4)
  /-- `rt` is the register stored (R63). -/
  | sw (rt rs : RegNum) (off4 : BitVec 4)
  | lhb (rd : RegNum) (imm8 : BitVec 8)
  | llb (rd : RegNum) (imm8 : BitVec 8)
  /-- `imm9` is a signed offset (R73). -/
  | b (cond : Cond) (imm9 : BitVec 9)
  | br (cond : Cond) (rs : RegNum)
  | pcs (rd : RegNum)
  | hlt
  deriving DecidableEq, Repr

/-- A partial map from even byte addresses to 16-bit words, as the host supplies it for `IMEM` or
`DMEM_INIT` (`00_scope.md` R8): address and word pairs. -/
abbrev Image := List (Nat × Word)

end Sys2Proof
end

