-- ==== Sys2Proof/WellFormed.lean ====
section
/-!
DEFINITION. Well-formedness. Of an instruction: every value of every field is legal (`30_encoding.md`
R75: all register numbers, amounts, offsets, immediates and conditions), and a field cannot leave its
width because its type is that width, so each arm is `true`. Of an image: the partial map of
`00_scope.md` R8, which the host supplies, has even 16-bit addresses, each once.
-/

namespace Sys2Proof

/-- Every instruction is well formed: `30_encoding.md` R75. -/
def Instr.wellFormed : Instr → Bool
  | .add _ _ _ => true
  | .sub _ _ _ => true
  | .red _ _ _ => true
  | .xor _ _ _ => true
  | .sll _ _ _ => true
  | .sra _ _ _ => true
  | .ror _ _ _ => true
  | .paddsb _ _ _ => true
  | .lw _ _ _ => true
  | .sw _ _ _ => true
  | .lhb _ _ => true
  | .llb _ _ => true
  | .b _ _ => true
  | .br _ _ => true
  | .pcs _ => true
  | .hlt => true

/-- Every address of the image is even (`20_memory.md` R42). -/
def Image.allEven (img : Image) : Bool := img.all fun p => p.1 % 2 == 0

/-- Every address of the image fits 16 bits (`20_memory.md` R40). -/
def Image.inRange (img : Image) : Bool := img.all fun p => p.1 < 65536

/-- No address stands twice: the image is a map (`00_scope.md` R8). -/
def Image.noRepeat : Image → Bool
  | [] => true
  | (a, _) :: rest => rest.all (fun p => p.1 != a) && Image.noRepeat rest

/-- What R8 calls a partial map from even 16-bit addresses to 16-bit words. -/
def Image.wellFormed (img : Image) : Bool :=
  Image.allEven img && Image.inRange img && Image.noRepeat img

end Sys2Proof
end

