-- ==== Sys2Proof/Decode.lean ====
section
/-!
DEFINITION. Decoding (`30_encoding.md` R78) and, after it, encoding, both from the patterns of R61 to
R69. Bits are numbered with the leftmost character of a pattern as bit 15 (`00_scope.md` R10, log 16).
Bits written `x` are ignored by the decoder and written 0 by the encoder (R76, log 13).
-/

namespace Sys2Proof

/-- Bits `lo + width - 1` down to `lo` of an instruction word (`00_scope.md` R12, `v[hi:lo]`). -/
def field (w : Word) (lo width : Nat) : BitVec width := w.extractLsb' lo width

/-- The halfword whose bytes stand at an even address (`b0`) and the odd one after it (`b1`)
(`20_memory.md` R42, R48). -/
def wordOfBytes (o : ByteOrder) (b0 b1 : Byte) : Word :=
  match o with
  | .little => b1 ++ b0
  | .big => b0 ++ b1

/-- The bytes of a halfword: the one at its even address, then the one at the odd address. -/
def bytesOfWord (o : ByteOrder) (w : Word) : Byte × Byte :=
  match o with
  | .little => (w.extractLsb' 0 8, w.extractLsb' 8 8)
  | .big => (w.extractLsb' 8 8, w.extractLsb' 0 8)

/-- The condition of `ccc = I[11:9]` (`30_encoding.md` R74). -/
def decodeCond (ccc : BitVec 3) : Cond :=
  match ccc with
  | 0b000#3 => .neq
  | 0b001#3 => .eq
  | 0b010#3 => .gt
  | 0b011#3 => .lt
  | 0b100#3 => .gte
  | 0b101#3 => .lte
  | 0b110#3 => .ovfl
  | 0b111#3 => .uncond

/-- The instruction of a 16-bit word (R78): `op = I[15:12]` selects the row of R69 and the row's format
gives the fields. Total, because all sixteen opcodes are assigned and every field value is legal (R75);
the last arm is opcode 15, the only one left of a 4-bit field. -/
def decodeWord (w : Word) : Instr :=
  match (field w 12 4).toNat with
  | 0 => .add (field w 8 4) (field w 4 4) (field w 0 4)
  | 1 => .sub (field w 8 4) (field w 4 4) (field w 0 4)
  | 2 => .red (field w 8 4) (field w 4 4) (field w 0 4)
  | 3 => .xor (field w 8 4) (field w 4 4) (field w 0 4)
  | 4 => .sll (field w 8 4) (field w 4 4) (field w 0 4)
  | 5 => .sra (field w 8 4) (field w 4 4) (field w 0 4)
  | 6 => .ror (field w 8 4) (field w 4 4) (field w 0 4)
  | 7 => .paddsb (field w 8 4) (field w 4 4) (field w 0 4)
  | 8 => .lw (field w 8 4) (field w 4 4) (field w 0 4)
  | 9 => .sw (field w 8 4) (field w 4 4) (field w 0 4)
  | 10 => .lhb (field w 8 4) (field w 0 8)
  | 11 => .llb (field w 8 4) (field w 0 8)
  | 12 => .b (decodeCond (field w 9 3)) (field w 0 9)
  | 13 => .br (decodeCond (field w 9 3)) (field w 4 4)
  | 14 => .pcs (field w 8 4)
  | _ => .hlt

/-- Why a list of bytes holds no instruction. No 16-bit word is refused (R75). -/
inductive DecodeError where
  /-- Fewer than two bytes: every instruction is exactly 16 bits long (R60). -/
  | truncated
  deriving DecidableEq, Repr

/-- The first instruction of a list of bytes and the bytes after it (R60: two bytes each). -/
def decode (o : ByteOrder) : List Byte → Except DecodeError (Instr × List Byte)
  | b0 :: b1 :: rest => .ok (decodeWord (wordOfBytes o b0 b1), rest)
  | _ => .error .truncated

/-- The field `ccc` of a condition (R74). -/
def encodeCond : Cond → BitVec 3
  | .neq => 0b000#3
  | .eq => 0b001#3
  | .gt => 0b010#3
  | .lt => 0b011#3
  | .gte => 0b100#3
  | .lte => 0b101#3
  | .ovfl => 0b110#3
  | .uncond => 0b111#3

/-- Four 4-bit groups, leftmost first: formats RRR, RRI and MEM (R61, R62, R63). -/
def pack4 (op f2 f1 f0 : BitVec 4) : Word := op ++ f2 ++ f1 ++ f0

/-- An opcode, a register number and a byte: formats IMM8 and PCS (R64, R67). -/
def pack8 (op rd : BitVec 4) (imm8 : BitVec 8) : Word := op ++ rd ++ imm8

/-- An opcode, a condition and nine bits: formats B and BR (R65, R66). -/
def pack9 (op : BitVec 4) (c : Cond) (low : BitVec 9) : Word := op ++ encodeCond c ++ low

/-- The canonical word of an instruction (R61 to R69; `x` bits 0, R76). -/
def encode : Instr → Word
  | .add rd rs rt => pack4 0x0#4 rd rs rt
  | .sub rd rs rt => pack4 0x1#4 rd rs rt
  | .red rd rs rt => pack4 0x2#4 rd rs rt
  | .xor rd rs rt => pack4 0x3#4 rd rs rt
  | .sll rd rs imm4 => pack4 0x4#4 rd rs imm4
  | .sra rd rs imm4 => pack4 0x5#4 rd rs imm4
  | .ror rd rs imm4 => pack4 0x6#4 rd rs imm4
  | .paddsb rd rs rt => pack4 0x7#4 rd rs rt
  | .lw rt rs off4 => pack4 0x8#4 rt rs off4
  | .sw rt rs off4 => pack4 0x9#4 rt rs off4
  | .lhb rd imm8 => pack8 0xA#4 rd imm8
  | .llb rd imm8 => pack8 0xB#4 rd imm8
  | .b cond imm9 => pack9 0xC#4 cond imm9
  | .br cond rs => pack9 0xD#4 cond (0#1 ++ rs ++ 0#4)
  | .pcs rd => pack8 0xE#4 rd 0#8
  | .hlt => 0xF000#16

/-- The bytes of an instruction's canonical word, as they lie in instruction memory. -/
def encodeBytes (o : ByteOrder) (i : Instr) : List Byte :=
  [(bytesOfWord o (encode i)).1, (bytesOfWord o (encode i)).2]

/-- The bits of a word that its instruction uses: all but those written `x` (R76). -/
def usedBits : Instr → Word
  | .br _ _ => 0xFEF0#16
  | .pcs _ => 0xFF00#16
  | .hlt => 0xF000#16
  | _ => 0xFFFF#16

/-- The instruction the decoder reads from an instruction whose low `nbits` bits are those of `w`, bits
above them 0: the word is laid out as two bytes and given to `decode`. The byte order is the same on
both sides, so which one it is does not matter (`20_memory.md` R48). -/
def decodeTableWord (nbits w : Nat) : Option Instr :=
  match decode .little
      [(bytesOfWord .little (BitVec.ofNat 16 (w % 2 ^ nbits))).1,
       (bytesOfWord .little (BitVec.ofNat 16 (w % 2 ^ nbits))).2] with
  | .ok (i, _) => some i
  | .error _ => none

end Sys2Proof
end

