-- ==== Sys2Proof/Machine/Parameters.lean ====
section
/-!
DEFINITION. The settings of the open parameters (`00_scope.md` R8) that `State.reset` carries, and what a
reset leaves in the registers and flags under a setting (`10_state.md` R35).
-/

namespace Sys2Proof.Machine

/-- DESIGN CHOICE (logs 1, 2, 3, 8): `BSHIFT` and `RED_SIGNED` at the values R8 recommends; `RESET_GPR` and
`RESET_FLAG` at the all-zero setting R35 names (unsafe: see log 3); `BYTE_ORDER` little (unobservable). -/
def resetConfig : Config :=
  { bshift := 0
    redSigned := true
    resetGpr := Vector.replicate 15 (some 0)
    resetZ := some false
    resetV := some false
    resetN := some false
    byteOrder := .little }

/-- `$1` to `$15` after the `n`-th reset: the value of `RESET_GPR`, or a free value where it is
`unspecified` (R35). -/
def resetRegs (c : Config) (n : Nat) : Vector Word 15 :=
  Vector.ofFn fun i => (c.resetGpr[i]).getD (Config.freeResetGpr n i)

end Sys2Proof.Machine
end

