-- ==== Sys2Proof/Machine/State.lean ====
section
/-!
DEFINITION. The state of a WISC-S18 machine (`10_state.md` section 8), as plain data, and the reasons a
step can stop (`60_exceptions.md` R153).
-/

namespace Sys2Proof.Machine

/-- A byte-addressed memory: the bytes that have been written or supplied, addresses strictly rising.
An unlisted address has no byte of its own: in data memory it reads as a free value (R36, log 7), in
instruction memory `IMEM` holds no word there (R33). -/
abbrev Memory := List Host.Cell

/-- The addresses from `lo` on are strictly rising and below 65536 (`20_memory.md` R40, R50). -/
def Memory.wfFrom : Nat → Memory → Bool
  | _, [] => true
  | lo, (a, _) :: rest => decide (lo ≤ a) && decide (a < 65536) && Memory.wfFrom (a + 1) rest

/-- The canonical form: strictly rising 16-bit addresses. An unlisted address is "no byte", which no
entry can equal, so equal contents are equal lists. -/
def Memory.wf (m : Memory) : Bool := Memory.wfFrom 0 m

/-- The FLAG register: three Booleans (`10_state.md` R28, log 24). -/
structure Flags where
  /-- Zero. -/
  z : Bool
  /-- Overflow. -/
  v : Bool
  /-- Sign. -/
  n : Bool
  deriving DecidableEq, Repr

/-- Everything the spec gives the machine (`10_state.md` section 8, `00_scope.md` R8), the input pin
`rst_n`, and the model's own reset counter. -/
structure State where
  /-- `$1` to `$15`, slot `i` holding `$(i+1)` (R20). `$0` has no storage: it is hardwired (R21). -/
  regs : Vector Word 15
  /-- The program counter (R25), also the output pin `pc[15:0]` (`60_exceptions.md` R163). -/
  pc : Word
  /-- The FLAG register (R28). -/
  flags : Flags
  /-- Data memory (R32). -/
  dmem : Memory
  /-- Instruction memory, the parameter `IMEM` (R33): no instruction writes it. -/
  imem : Memory
  /-- The other parameters of `00_scope.md` R8: no instruction writes them. -/
  config : Config
  /-- The input pin `rst_n`, active low (`60_exceptions.md` R161); `true` is high. Log 5. -/
  rstN : Bool
  /-- The MODEL's own: how many resets have drawn free values so far (log 4). -/
  draws : Nat
  deriving DecidableEq, Repr

/-- The model-level faults, complete (`60_exceptions.md` R153). Both are raised by the fetch at the
start of a step, before any state changes. -/
inductive Fault where
  /-- Raised by the fetch when `pc` is odd (R26, log 10). Safe: the model stops where the source gives
  the hardware no behaviour. -/
  | misalignedFetch (pc : Word)
  /-- Raised by the fetch when `pc` is even and `IMEM` holds no word there (R33, log 11). Safe: the model
  stops where the source says nothing of the memory's contents. -/
  | fetchOutsideImage (pc : Word)
  deriving DecidableEq, Repr

/-- Why an instruction has no meaning. Nothing raises it: all sixteen instructions are modelled. -/
inductive Refusal where
  /-- Raised by an arm of `exec` whose instruction has no meaning yet; there is none. Safe. -/
  | notModelled (mnemonic : String)
  deriving DecidableEq, Repr

/-- The machine right after reset (`70_reset_and_hazards.md` R171): `pc` is 0x0000 (R34) and `$0` is
0x0000 (R21); `$1` to `$15` and the flags are at the values of log 3; both memories list nothing, for the
host supplies their contents (`60_exceptions.md` R164, log 9); `rst_n` is high again (R170). -/
def State.reset : State :=
  { regs := resetRegs resetConfig 0
    pc := 0x0000#16
    flags :=
      { z := resetConfig.resetZ.getD (Config.freeResetZ 0)
        v := resetConfig.resetV.getD (Config.freeResetV 0)
        n := resetConfig.resetN.getD (Config.freeResetN 0) }
    dmem := []
    imem := []
    config := resetConfig
    rstN := true
    draws := 1 }

end Sys2Proof.Machine
end

