-- ==== Sys2Proof/Machine/Operands.lean ====
section
/-!
DEFINITION. Operand forms: the pseudocode primitives of `00_scope.md` R12 on values, the fields of packed
operands, and the address computations of `42_memory_instructions.md` R120 and `43_control.md` R131.
-/

namespace Sys2Proof.Machine

/-- The largest integer of `N`-bit two's complement, `2^(N-1) - 1` (`41_compute.md` R100). -/
def satMax (N : Nat) : Int := ((2 ^ (N - 1) : Nat) : Int) - 1

/-- The smallest integer of `N`-bit two's complement, `-2^(N-1)` (R100). -/
def satMin (N : Nat) : Int := -((2 ^ (N - 1) : Nat) : Int)

/-- `sat_N(k)` of R12 and R100: the exact integer clamped to the limits, as an `N`-bit value. -/
def sat (N : Nat) (k : Int) : BitVec N :=
  if satMax N < k then BitVec.ofInt N (satMax N)
  else if k < satMin N then BitVec.ofInt N (satMin N)
  else BitVec.ofInt N k

/-- Half-byte `j` of a word, `v[4j+3 : 4j]` (`00_scope.md` section 6: lane 3 is bits 15:12). -/
def nibble (v : Word) (j : Nat) : BitVec 4 := v.extractLsb' (4 * j) 4

/-- One lane of PADDSB: a saturating 4-bit signed addition (`41_compute.md` R103). -/
def laneAdd (a b : Word) (j : Nat) : BitVec 4 :=
  sat 4 ((nibble a j).toInt + (nibble b j).toInt)

/-- The four lanes of PADDSB, lane 3 in bits 15:12 (R103). -/
def packedAdd (a b : Word) : Word := laneAdd a b 3 ++ laneAdd a b 2 ++ laneAdd a b 1 ++ laneAdd a b 0

/-- The exact sum of a word's four half-bytes read as signed (R104). -/
def signedNibbleSum (v : Word) : Int :=
  (nibble v 0).toInt + (nibble v 1).toInt + (nibble v 2).toInt + (nibble v 3).toInt

/-- The exact sum of a word's four half-bytes read as unsigned (R105). -/
def unsignedNibbleSum (v : Word) : Nat :=
  (nibble v 0).toNat + (nibble v 1).toNat + (nibble v 2).toNat + (nibble v 3).toNat

/-- The result of RED under either setting of `RED_SIGNED` (R104, R105): the exact signed sum as a
16-bit value, or the 7-bit unsigned sum sign-extended from its bit 6. -/
def reduction (signed : Bool) (a b : Word) : Word :=
  if signed then BitVec.ofInt 16 (signedNibbleSum a + signedNibbleSum b)
  else (BitVec.ofNat 7 (unsignedNibbleSum a + unsignedNibbleSum b)).signExtend 16

/-- SLL (R108): zeros enter at bit 0. -/
def shiftLeft (v : Word) (imm4 : BitVec 4) : Word := v <<< imm4.toNat

/-- SRA (R109): copies of bit 15 enter at the top. -/
def shiftRightArith (v : Word) (imm4 : BitVec 4) : Word := v.sshiftRight imm4.toNat

/-- ROR (R110): the bits that leave past bit 0 re-enter at the top. -/
def rotateRight (v : Word) (imm4 : BitVec 4) : Word :=
  (v >>> imm4.toNat) ||| (v <<< (16 - imm4.toNat))

/-- LHB (`42_memory_instructions.md` R123): the immediate above the old low byte. -/
def withHighByte (v : Word) (imm8 : BitVec 8) : Word := imm8 ++ v.extractLsb' 0 8

/-- LLB (R124): the old high byte above the immediate. -/
def withLowByte (v : Word) (imm8 : BitVec 8) : Word := v.extractLsb' 8 8 ++ imm8

/-- The effective address of LW and SW (R120), modulo 2^16 (log 12): the base with bit 0 cleared plus the
sign-extended offset shifted left by one. -/
def effectiveAddress (base : Word) (off4 : BitVec 4) : Word :=
  (base &&& 0xFFFE#16) + (off4.signExtend 16 <<< 1)

/-- The address of the next instruction in memory order, modulo 2^16 (`10_state.md` R25, log 12). -/
def nextPc (pc : Word) : Word := pc + 2#16

/-- The target of B (`43_control.md` R131, `30_encoding.md` R73), modulo 2^16 (log 12). -/
def branchTarget (bshift : Fin 2) (pc : Word) (imm9 : BitVec 9) : Word :=
  nextPc pc + (imm9.signExtend 16 <<< (bshift : Nat))

end Sys2Proof.Machine
end

