-- ==== Sys2Proof/Machine/Flags.lean ====
section
/-!
DEFINITION. Every flag computation (`10_state.md` R29, R30; `41_compute.md` R111) and the branch
conditions (`43_control.md` R130).
-/

namespace Sys2Proof.Machine

/-- The flags after ADD and SUB (`41_compute.md` R111, log 15): V from the exact result `k` being outside
the 16-bit range, Z and N from the saturated value `r` written. -/
def arithFlags (k : Int) (r : Word) : Flags :=
  { z := r == 0#16
    v := decide (satMax 16 < k) || decide (k < satMin 16)
    n := r.msb }

/-- The flags after XOR, SLL, SRA and ROR (R111): Z from the value written, V and N kept (R30). -/
def logicFlags (f : Flags) (r : Word) : Flags := { f with z := r == 0#16 }

/-- `cond(ccc)` of `43_control.md` R130. -/
def condHolds (c : Cond) (f : Flags) : Bool :=
  match c with
  | .neq => !f.z
  | .eq => f.z
  | .gt => !f.z && !f.n
  | .lt => f.n
  | .gte => f.z || (!f.z && !f.n)
  | .lte => f.n || f.z
  | .ovfl => f.v
  | .uncond => true

end Sys2Proof.Machine
end

