-- ==== Sys2Proof/Machine/Ops.lean ====
section
/-!
DEFINITION. The named operations over registers, memories, `pc` and flags (`00_scope.md` R12), the fetch
(`20_memory.md` R43) and the Reset event (`70_reset_and_hazards.md` R171).

Taking an exception and returning from one are not operations of this machine: the hardware raises no
exception, has no trap entry and no trap return (`60_exceptions.md` R150, R155, R156; log 20).
-/

namespace Sys2Proof.Machine

/-! ## Bytes and halfwords of a memory -/

/-- The byte a memory lists at an address, if any. -/
def Memory.get? : Memory → Nat → Option Byte
  | [], _ => none
  | (b, v) :: rest, a => if b = a then some v else Memory.get? rest a

/-- The memory with one byte written, in canonical form. -/
def Memory.set : Memory → Nat → Byte → Memory
  | [], a, v => [(a, v)]
  | (b, w) :: rest, a, v =>
    if a < b then (a, v) :: (b, w) :: rest
    else if a = b then (a, v) :: rest
    else (b, w) :: Memory.set rest a v

/-- The halfword a memory lists at an even address, if it lists both its bytes (`20_memory.md` R42). -/
def Memory.half? (o : ByteOrder) (m : Memory) (a : Word) : Option Word :=
  match m.get? a.toNat, m.get? (a + 1#16).toNat with
  | some b0, some b1 => some (wordOfBytes o b0 b1)
  | _, _ => none

/-- A halfword written at an even address (R45): both its bytes, and no others. -/
def Memory.setHalf (o : ByteOrder) (m : Memory) (a v : Word) : Memory :=
  (m.set a.toNat (bytesOfWord o v).1).set (a + 1#16).toNat (bytesOfWord o v).2

/-- The free byte an unlisted address of data memory reads as: a byte of the free halfword at its even
address (`10_state.md` R36, log 7). -/
def unwrittenByte (o : ByteOrder) (a : Nat) : Byte :=
  if a % 2 = 0 then (bytesOfWord o (Config.unwrittenHalf (BitVec.ofNat 16 a))).1
  else (bytesOfWord o (Config.unwrittenHalf (BitVec.ofNat 16 (a - 1)))).2

/-- One byte of data memory as a read gives it. -/
def Memory.readByte (o : ByteOrder) (m : Memory) (a : Nat) : Byte :=
  (m.get? a).getD (unwrittenByte o a)

/-- A halfword of data memory as a read gives it (R44). -/
def Memory.readHalf (o : ByteOrder) (m : Memory) (a : Word) : Word :=
  wordOfBytes o (m.readByte o a.toNat) (m.readByte o (a + 1#16).toNat)

/-! ## Registers -/

/-- `$0` is the only register number without a slot. -/
theorem regSlot_lt (r : RegNum) : r.toNat - 1 < 15 := by
  have := r.isLt
  omega

/-- `x[r]` (`00_scope.md` R9, R12): `$0` is hardwired to 0x0000 (`10_state.md` R21). -/
def State.reg (s : State) (r : RegNum) : Word :=
  if r = 0#4 then 0x0000#16 else s.regs[r.toNat - 1]'(regSlot_lt r)

/-- `x[r] <- v` (R12): a write to `$0` changes nothing (`10_state.md` R21, log 19). -/
def State.setReg (s : State) (r : RegNum) (v : Word) : State :=
  { s with regs := if r = 0#4 then s.regs else s.regs.set (r.toNat - 1) v (regSlot_lt r) }

/-! ## `pc`, flags and data memory -/

/-- `pc <- v` (R12). -/
def State.setPc (s : State) (v : Word) : State := { s with pc := v }

/-- `pc <- pc +16 2`, the end of every instruction that does not assign `pc` (`00_scope.md` R13). -/
def State.advance (s : State) : State := s.setPc (nextPc s.pc)

/-- The three flags, written together. -/
def State.setFlags (s : State) (f : Flags) : State := { s with flags := f }

/-- The byte of data memory at an address, as a read gives it. -/
def State.dataByte (s : State) (a : Nat) : Byte := s.dmem.readByte s.config.byteOrder a

/-- `MemRead(addr, 2)` (`20_memory.md` R44). -/
def State.memRead (s : State) (a : Word) : Word := s.dmem.readHalf s.config.byteOrder a

/-- `MemWrite(addr, 2, v)` (`20_memory.md` R45). -/
def State.memWrite (s : State) (a v : Word) : State :=
  { s with dmem := s.dmem.setHalf s.config.byteOrder a v }

/-! ## What the instruction families share -/

/-- The end of ADD and SUB, whose exact result is `k` (`41_compute.md` R101, R102, R111): the saturated
value to `rd`, all three flags, and the next instruction. -/
def State.finishArith (s : State) (rd : RegNum) (k : Int) : State :=
  ((s.setReg rd (sat 16 k)).setFlags (arithFlags k (sat 16 k))).advance

/-- The end of XOR, SLL, SRA and ROR (R107 to R111): the value to `rd`, Z, and the next instruction. -/
def State.finishLogic (s : State) (rd : RegNum) (r : Word) : State :=
  ((s.setReg rd r).setFlags (logicFlags s.flags r)).advance

/-- The end of an instruction that writes a register and no flag: PADDSB, RED, LW, LHB, LLB, PCS. -/
def State.finishPlain (s : State) (rd : RegNum) (r : Word) : State := (s.setReg rd r).advance

/-! ## Fetch -/

/-- `IMemRead(addr)` (`20_memory.md` R43): the word `IMEM` holds at an even address, if any. -/
def State.imemRead (s : State) (a : Word) : Option Word := s.imem.half? s.config.byteOrder a

/-- The fetch at the start of a step (R43): the instruction at `pc`, or a model-level fault of
`60_exceptions.md` R153. Bit 0 of `pc` is never cleared (R47). -/
def State.fetch (s : State) : Except Fault Instr :=
  if s.pc.getLsbD 0 then .error (.misalignedFetch s.pc)
  else
    match s.imemRead s.pc with
    | none => .error (.fetchOutsideImage s.pc)
    | some w => .ok (decodeWord w)

/-! ## Reset -/

/-- The Reset event (`70_reset_and_hazards.md` R171): `pc` is 0x0000; registers and flags take their
`RESET_GPR` and `RESET_FLAG` values, fresh free values where those are `unspecified` (R35, log 4); data
memory and `IMEM` stay (R36, log 6); `rst_n` is high again (log 5). -/
def resetEvent (s : State) : State :=
  { s with
    regs := resetRegs s.config s.draws
    pc := 0x0000#16
    flags :=
      { z := s.config.resetZ.getD (Config.freeResetZ s.draws)
        v := s.config.resetV.getD (Config.freeResetV s.draws)
        n := s.config.resetN.getD (Config.freeResetN s.draws) }
    rstN := true
    draws := s.draws + 1 }

end Sys2Proof.Machine
end

