-- ==== Sys2Proof/Machine/Compute.lean ====
section
/-!
DEFINITION. The compute instructions (`41_compute.md`). Sources are read before the destination is written
(`10_state.md` R24); a result whose destination is `$0` is discarded while the flags are still written
(R21, R111).
-/

namespace Sys2Proof.Machine

/-- ADD (`41_compute.md` R101). -/
def execAdd (rd rs rt : RegNum) (s : State) : Host.Outcome State Fault Refusal :=
  .next (s.finishArith rd ((s.reg rs).toInt + (s.reg rt).toInt))

/-- SUB (`41_compute.md` R102): `(rs) - (rt)` (log 14). -/
def execSub (rd rs rt : RegNum) (s : State) : Host.Outcome State Fault Refusal :=
  .next (s.finishArith rd ((s.reg rs).toInt - (s.reg rt).toInt))

/-- RED (`41_compute.md` R104, R105), under the setting of `RED_SIGNED` (log 2). No flag is written. -/
def execRed (rd rs rt : RegNum) (s : State) : Host.Outcome State Fault Refusal :=
  .next (s.finishPlain rd (reduction s.config.redSigned (s.reg rs) (s.reg rt)))

/-- XOR (`41_compute.md` R107). -/
def execXor (rd rs rt : RegNum) (s : State) : Host.Outcome State Fault Refusal :=
  .next (s.finishLogic rd (s.reg rs ^^^ s.reg rt))

/-- SLL (`41_compute.md` R108). -/
def execSll (rd rs : RegNum) (imm4 : BitVec 4) (s : State) : Host.Outcome State Fault Refusal :=
  .next (s.finishLogic rd (shiftLeft (s.reg rs) imm4))

/-- SRA (`41_compute.md` R109). -/
def execSra (rd rs : RegNum) (imm4 : BitVec 4) (s : State) : Host.Outcome State Fault Refusal :=
  .next (s.finishLogic rd (shiftRightArith (s.reg rs) imm4))

/-- ROR (`41_compute.md` R110). -/
def execRor (rd rs : RegNum) (imm4 : BitVec 4) (s : State) : Host.Outcome State Fault Refusal :=
  .next (s.finishLogic rd (rotateRight (s.reg rs) imm4))

/-- PADDSB (`41_compute.md` R103). No flag is written, even when a lane saturates. -/
def execPaddsb (rd rs rt : RegNum) (s : State) : Host.Outcome State Fault Refusal :=
  .next (s.finishPlain rd (packedAdd (s.reg rs) (s.reg rt)))

end Sys2Proof.Machine
end

