-- ==== Sys2Proof/Machine/Control.lean ====
section
/-!
DEFINITION. The control instructions (`43_control.md`). None writes a flag; a target is used as computed,
with no check (R135): an odd one makes the next fetch the fault `misalignedFetch`.
-/

namespace Sys2Proof.Machine

/-- B (`43_control.md` R131), under the setting of `BSHIFT` (log 1). -/
def execB (cond : Cond) (imm9 : BitVec 9) (s : State) : Host.Outcome State Fault Refusal :=
  .next (s.setPc
    (if condHolds cond s.flags then branchTarget s.config.bshift s.pc imm9 else nextPc s.pc))

/-- BR (`43_control.md` R132): the whole content of `rs`, unmasked. -/
def execBr (cond : Cond) (rs : RegNum) (s : State) : Host.Outcome State Fault Refusal :=
  .next (s.setPc (if condHolds cond s.flags then s.reg rs else nextPc s.pc))

/-- PCS (`43_control.md` R133). -/
def execPcs (rd : RegNum) (s : State) : Host.Outcome State Fault Refusal :=
  .next (s.finishPlain rd (nextPc s.pc))

/-- HLT (`43_control.md` R134): `pc` does not advance and nothing changes, so the next step fetches the
same HLT again (R136, log 17). -/
def execHlt (s : State) : Host.Outcome State Fault Refusal := .next s

end Sys2Proof.Machine
end

