-- ==== Sys2Proof/Machine/LoadStore.lean ====
section
/-!
DEFINITION. The memory instructions (`42_memory_instructions.md`): LW and SW, the only ones that touch data
memory, and the load-immediates LHB and LLB, which touch no memory. None writes a flag (`10_state.md` R30).
-/

namespace Sys2Proof.Machine

/-- LW (`42_memory_instructions.md` R121); the address uses the old base even when `rt = rs`. -/
def execLw (rt rs : RegNum) (off4 : BitVec 4) (s : State) : Host.Outcome State Fault Refusal :=
  .next (s.finishPlain rt (s.memRead (effectiveAddress (s.reg rs) off4)))

/-- SW (`42_memory_instructions.md` R122). No register is written. -/
def execSw (rt rs : RegNum) (off4 : BitVec 4) (s : State) : Host.Outcome State Fault Refusal :=
  .next (s.memWrite (effectiveAddress (s.reg rs) off4) (s.reg rt)).advance

/-- LHB (`42_memory_instructions.md` R123): the low byte of `rd` is kept. -/
def execLhb (rd : RegNum) (imm8 : BitVec 8) (s : State) : Host.Outcome State Fault Refusal :=
  .next (s.finishPlain rd (withHighByte (s.reg rd) imm8))

/-- LLB (`42_memory_instructions.md` R124): the high byte of `rd` is kept. -/
def execLlb (rd : RegNum) (imm8 : BitVec 8) (s : State) : Host.Outcome State Fault Refusal :=
  .next (s.finishPlain rd (withLowByte (s.reg rd) imm8))

end Sys2Proof.Machine
end

