-- ==== Sys2Proof/Machine/Dispatch.lean ====
section
/-! DEFINITION. The meaning of each instruction: one arm per constructor of `Instr`. -/

namespace Sys2Proof.Machine

def exec (i : Instr) (s : State) : Host.Outcome State Fault Refusal :=
  match i with
  | .add rd rs rt => Sys2Proof.Machine.execAdd rd rs rt s
  | .sub rd rs rt => Sys2Proof.Machine.execSub rd rs rt s
  | .red rd rs rt => Sys2Proof.Machine.execRed rd rs rt s
  | .xor rd rs rt => Sys2Proof.Machine.execXor rd rs rt s
  | .sll rd rs imm4 => Sys2Proof.Machine.execSll rd rs imm4 s
  | .sra rd rs imm4 => Sys2Proof.Machine.execSra rd rs imm4 s
  | .ror rd rs imm4 => Sys2Proof.Machine.execRor rd rs imm4 s
  | .paddsb rd rs rt => Sys2Proof.Machine.execPaddsb rd rs rt s
  | .lw rt rs off4 => Sys2Proof.Machine.execLw rt rs off4 s
  | .sw rt rs off4 => Sys2Proof.Machine.execSw rt rs off4 s
  | .lhb rd imm8 => Sys2Proof.Machine.execLhb rd imm8 s
  | .llb rd imm8 => Sys2Proof.Machine.execLlb rd imm8 s
  | .b cond imm9 => Sys2Proof.Machine.execB cond imm9 s
  | .br cond rs => Sys2Proof.Machine.execBr cond rs s
  | .pcs rd => Sys2Proof.Machine.execPcs rd s
  | .hlt => Sys2Proof.Machine.execHlt s

end Sys2Proof.Machine
end

