-- ==== Sys2Proof/Machine/Step.lean ====
section
/-!
DEFINITION. One step: the Reset event while `rst_n` is low, else one instruction fetched and executed, with
all its effects, before the next (`00_scope.md` R4, `70_reset_and_hazards.md` R170, R183).
-/

namespace Sys2Proof.Machine

/-- One step of the machine. "Instructions are executed when rst_n is high" (R170); reset overrides
everything else (`60_exceptions.md` R152). -/
def step (s : State) : Host.Outcome State Fault Refusal :=
  if s.rstN then
    match s.fetch with
    | .ok i => exec i s
    | .error f => .fault f
  else .next (resetEvent s)

/-- `s` with the instruction whose low `nbits` bits are those of `w` (the bits above them 0) stored in
instruction memory where the next fetch reads, and `rst_n` high, so that an instruction is executed (R170).
`pc` is left as it is: at an odd `pc` there is no fetch (R47). -/
def State.withFetchWord (s : State) (nbits w : Nat) : State :=
  { s with
    imem := s.imem.setHalf s.config.byteOrder s.pc (BitVec.ofNat 16 (w % 2 ^ nbits))
    rstN := true }

end Sys2Proof.Machine
end

