-- ==== Sys2Proof/Machine/Pins.lean ====
section
/-!
DEFINITION. The external interface (`60_exceptions.md` section 5): the output pins as functions of the state,
and the moves of the host (R164, `70_reset_and_hazards.md` R173). The host has no other move (log 23).
-/

namespace Sys2Proof.Machine

/-- The output `hlt` (`60_exceptions.md` R162): 1 exactly when the instruction at `pc` is HLT. -/
def State.hltPin (s : State) : Bool :=
  match s.fetch with
  | .ok .hlt => true
  | _ => false

/-- The output `pc[15:0]` (R163). -/
def State.pcPin (s : State) : Word := s.pc

/-- The host pulls `rst_n` low (R161); the next step is the Reset event (`70_reset_and_hazards.md` R171). -/
def State.pulseReset (s : State) : State := { s with rstN := false }

/-- The bytes of an image, laid out in a memory that lists nothing else. -/
def Image.toMemory (o : ByteOrder) : Image → Memory
  | [] => []
  | (a, w) :: rest => Memory.setHalf o (Image.toMemory o rest) (BitVec.ofNat 16 a) w

/-- The host loads the program: `IMEM` is exactly the image (`00_scope.md` R8, `60_exceptions.md` R164). -/
def State.loadImem (img : Image) (s : State) : State :=
  { s with imem := Image.toMemory s.config.byteOrder img }

/-- The host supplies the initial data memory, `DMEM_INIT` (R8, R164). -/
def State.loadDmem (img : Image) (s : State) : State :=
  { s with dmem := Image.toMemory s.config.byteOrder img }

/-- What the host does before a run (`70_reset_and_hazards.md` R173): both images, then the pulse. -/
def State.prepareRun (program data : Image) (s : State) : State :=
  ((s.loadImem program).loadDmem data).pulseReset

end Sys2Proof.Machine
end

