-- ==== Sys2Proof/Safety.lean ====
section
/-!
DEFINITION. The terms claims use: the frame of an instruction (what it leaves unchanged), the canonical
form of a state, the end of a run (`43_control.md` R136), and what counts as a safe run (`60_exceptions.md`
R153: a faulted run has no final state and nothing may be concluded from it).
-/

namespace Sys2Proof.Safety

open Sys2Proof.Machine

/-- Every register reads as before. -/
def KeepsRegs (s t : State) : Prop := ∀ q : RegNum, t.reg q = s.reg q

/-- Every register but `rd` reads as before. -/
def KeepsRegsExcept (s t : State) (rd : RegNum) : Prop := ∀ q : RegNum, q ≠ rd → t.reg q = s.reg q

/-- Data memory is unchanged: every byte reads as before, written or not. -/
def KeepsData (s t : State) : Prop := t.dmem = s.dmem ∧ ∀ a : Nat, t.dataByte a = s.dataByte a

/-- Every byte of data memory outside the halfword at address `a` is as before: listed or not as before,
and reading as before. -/
def KeepsDataOutside (s t : State) (a : Word) : Prop :=
  ∀ b : Nat, b ≠ a.toNat → b ≠ a.toNat + 1 →
    t.dmem.get? b = s.dmem.get? b ∧ t.dataByte b = s.dataByte b

/-- What no instruction writes: instruction memory, the parameters, the pin `rst_n` and the model's reset
counter. -/
def KeepsRun (s t : State) : Prop :=
  t.imem = s.imem ∧ t.config = s.config ∧ t.rstN = s.rstN ∧ t.draws = s.draws

/-- Both memories are in canonical form. -/
def Canonical (s : State) : Prop := s.imem.wf = true ∧ s.dmem.wf = true

/-- The final state of a run (`43_control.md` R136): the current instruction is HLT, and `rst_n` is high. -/
def Final (s : State) : Prop := s.rstN = true ∧ s.hltPin = true

/-- The run from `s` ends in `t` (R136). Executing HLT is a step to the same state, so the first final state
reached is the only one. -/
def EndsIn (s t : State) : Prop :=
  ∃ n : Nat, Host.Core.run core n s = .next t ∧ Final t

/-- No step of the run from `s` raises a model-level fault. -/
def SafeRun (s : State) : Prop := ∀ (n : Nat) (f : Fault), Host.Core.run core n s ≠ .fault f

/-! ## The tables of `10_state.md` R22 and R30 -/

/-- The registers an instruction reads (R22). -/
def readsRegs : Instr → List RegNum
  | .add _ rs rt => [rs, rt]
  | .sub _ rs rt => [rs, rt]
  | .red _ rs rt => [rs, rt]
  | .xor _ rs rt => [rs, rt]
  | .sll _ rs _ => [rs]
  | .sra _ rs _ => [rs]
  | .ror _ rs _ => [rs]
  | .paddsb _ rs rt => [rs, rt]
  | .lw _ rs _ => [rs]
  | .sw rt rs _ => [rs, rt]
  | .lhb rd _ => [rd]
  | .llb rd _ => [rd]
  | .b _ _ => []
  | .br _ rs => [rs]
  | .pcs _ => []
  | .hlt => []

/-- The register an instruction writes, if any (R22). -/
def writesReg : Instr → Option RegNum
  | .add rd _ _ => some rd
  | .sub rd _ _ => some rd
  | .red rd _ _ => some rd
  | .xor rd _ _ => some rd
  | .sll rd _ _ => some rd
  | .sra rd _ _ => some rd
  | .ror rd _ _ => some rd
  | .paddsb rd _ _ => some rd
  | .lw rt _ _ => some rt
  | .sw _ _ _ => none
  | .lhb rd _ => some rd
  | .llb rd _ => some rd
  | .b _ _ => none
  | .br _ _ => none
  | .pcs rd => some rd
  | .hlt => none

/-- The instructions that write V and N: ADD and SUB (R30). -/
def writesVN : Instr → Bool
  | .add _ _ _ => true
  | .sub _ _ _ => true
  | _ => false

/-- The instructions that write Z: ADD, SUB, XOR, SLL, SRA, ROR (R30). -/
def writesZ : Instr → Bool
  | .add _ _ _ => true
  | .sub _ _ _ => true
  | .xor _ _ _ => true
  | .sll _ _ _ => true
  | .sra _ _ _ => true
  | .ror _ _ _ => true
  | _ => false

/-- The instructions that read the flags: B and BR (R30). -/
def readsFlags : Instr → Bool
  | .b _ _ => true
  | .br _ _ => true
  | _ => false

/-! ## Byte order -/

/-- The two states are the same machine to a program: they agree on everything but `BYTE_ORDER` and on
every halfword of both memories (`20_memory.md` R48). -/
def SameButByteOrder (s s' : State) : Prop :=
  s'.regs = s.regs ∧ s'.pc = s.pc ∧ s'.flags = s.flags ∧ s'.rstN = s.rstN ∧ s'.draws = s.draws ∧
  s'.config = { s.config with byteOrder := s'.config.byteOrder } ∧
  ∀ a : Word, a.toNat % 2 = 0 → s'.imemRead a = s.imemRead a ∧ s'.memRead a = s.memRead a

end Sys2Proof.Safety
end

