-- ==== Sys2Proof/Certificates/Slice0/Obligations.lean ====
section
/-!
DEFINITION. The statements for the provers. Each docstring names the rule or the section of spec/ it
formalises, and the log entry where a clause rests on a choice. The rule `R25` (every instruction but a taken
branch and HLT ends with `pc + 2`) is stated once, for all of them, in `SequentialInstructionsAdvancePcByTwo`.
-/

open Sys2Proof Sys2Proof.Machine Sys2Proof.Safety

/-! ## Decoding, encoding and the step -/

/-- 30_encoding.md sections 2, 3 and 6 (R61 to R69, R78), with the bit numbering of log 16: decoding the
bytes of an instruction's word gives the instruction back, with every operand at every value, in either byte
order, and leaves the following bytes. -/
def Obligations.DecodeOfEncodeIsTheInstruction : Prop :=
  ∀ (o : ByteOrder) (i : Instr) (rest : List Byte),
    i.wellFormed = true ∧ decodeWord (encode i) = i ∧
      decode o (encodeBytes o i ++ rest) = .ok (i, rest)

/-- 30_encoding.md section 5 (R76, log 13): encoding what a word decodes to gives the word with its unused
bits cleared, so a decoder drops no other bit. -/
def Obligations.EncodeOfDecodeClearsOnlyUnusedBits : Prop :=
  ∀ w : Word, encode (decodeWord w) = w &&& usedBits (decodeWord w)

/-- R69: the 4-bit opcode `I[15:12]` selects the instruction, and all sixteen values are assigned. -/
def Obligations.OpcodeSelectsTheInstruction : Prop :=
  ∀ w : Word,
    (w.extractLsb' 12 4 = 0x0#4 → ∃ rd rs rt, decodeWord w = .add rd rs rt) ∧
    (w.extractLsb' 12 4 = 0x1#4 → ∃ rd rs rt, decodeWord w = .sub rd rs rt) ∧
    (w.extractLsb' 12 4 = 0x2#4 → ∃ rd rs rt, decodeWord w = .red rd rs rt) ∧
    (w.extractLsb' 12 4 = 0x3#4 → ∃ rd rs rt, decodeWord w = .xor rd rs rt) ∧
    (w.extractLsb' 12 4 = 0x4#4 → ∃ rd rs imm4, decodeWord w = .sll rd rs imm4) ∧
    (w.extractLsb' 12 4 = 0x5#4 → ∃ rd rs imm4, decodeWord w = .sra rd rs imm4) ∧
    (w.extractLsb' 12 4 = 0x6#4 → ∃ rd rs imm4, decodeWord w = .ror rd rs imm4) ∧
    (w.extractLsb' 12 4 = 0x7#4 → ∃ rd rs rt, decodeWord w = .paddsb rd rs rt) ∧
    (w.extractLsb' 12 4 = 0x8#4 → ∃ rt rs off4, decodeWord w = .lw rt rs off4) ∧
    (w.extractLsb' 12 4 = 0x9#4 → ∃ rt rs off4, decodeWord w = .sw rt rs off4) ∧
    (w.extractLsb' 12 4 = 0xA#4 → ∃ rd imm8, decodeWord w = .lhb rd imm8) ∧
    (w.extractLsb' 12 4 = 0xB#4 → ∃ rd imm8, decodeWord w = .llb rd imm8) ∧
    (w.extractLsb' 12 4 = 0xC#4 → ∃ c imm9, decodeWord w = .b c imm9) ∧
    (w.extractLsb' 12 4 = 0xD#4 → ∃ c rs, decodeWord w = .br c rs) ∧
    (w.extractLsb' 12 4 = 0xE#4 → ∃ rd, decodeWord w = .pcs rd) ∧
    (w.extractLsb' 12 4 = 0xF#4 → decodeWord w = .hlt)

/-- 95_test_vectors.md section 2.1: one word of each format decodes to the instruction listed there. That the
words 0xDF3F, 0xEFAB and 0xF123, whose unused bits are set, decode so is the spec's choice D8 (log 13). -/
def Obligations.SampleWordsDecodeAsListed : Prop :=
  decodeWord 0x1FED#16 = .sub 15#4 14#4 13#4 ∧
  decodeWord 0x512F#16 = .sra 1#4 2#4 15#4 ∧
  decodeWord 0x9128#16 = .sw 1#4 2#4 8#4 ∧
  decodeWord 0xA1AB#16 = .lhb 1#4 0xAB#8 ∧
  decodeWord 0xC1FA#16 = .b .neq 0x1FA#9 ∧
  decodeWord 0xDF3F#16 = .br .uncond 3#4 ∧
  decodeWord 0xEFAB#16 = .pcs 15#4 ∧
  decodeWord 0xF123#16 = .hlt

/-- 20_memory.md section 2 (R43) and 30_encoding.md section 6 (R78): while `rst_n` is high and `pc` is even,
if the bytes at `pc` decode to an instruction, the step is that instruction, executed on the same state. The
step adds nothing around it: the meaning itself moves `pc`. -/
def Obligations.StepRunsTheDecodedInstruction : Prop :=
  ∀ (s : State) (b0 b1 : Byte) (i : Instr),
    s.rstN = true → s.pc.toNat % 2 = 0 →
    s.imem.get? s.pc.toNat = some b0 → s.imem.get? (s.pc.toNat + 1) = some b1 →
    decode s.config.byteOrder [b0, b1] = .ok (i, []) →
    step s = exec i s

/-- 60_exceptions.md section 5 (R164) and 70_reset_and_hazards.md section 2 (R173), as log 26 says: an
instruction whose canonical word is placed where an even `pc` fetches is the one the next step runs. -/
def Obligations.PlacedInstructionIsRunNext : Prop :=
  ∀ (s : State) (i : Instr), s.pc.toNat % 2 = 0 →
    step (s.withFetchWord 16 (encode i).toNat) = exec i (s.withFetchWord 16 (encode i).toNat)

/-! ## Registers, saturation and compute instructions -/

/-- 10_state.md section 1 (R20, R21; that a write to `$0` is discarded is R21's inference, log 19): `$0` reads
0x0000 whatever was written, and each other register is a cell of its own. -/
def Obligations.RegistersAreIndependentAndZeroIsHardwired : Prop :=
  ∀ (s : State) (q r : RegNum) (v : Word),
    s.reg 0#4 = 0x0000#16 ∧ s.setReg 0#4 v = s ∧
    (r ≠ 0#4 → (s.setReg r v).reg r = v) ∧ (q ≠ r → (s.setReg r v).reg q = s.reg q)

/-- R100: the exact integer result is clamped to the limits of two's complement, at 16 and at 4 bits; ADD, SUB
(here in whichever order it subtracts) and the lanes of PADDSB write the clamped exact result. -/
def Obligations.SaturatedResultIsTheClampedExactResult : Prop :=
  (∀ k : Int,
    (32767 < k → sat 16 k = 0x7FFF#16) ∧ (k < -32768 → sat 16 k = 0x8000#16) ∧
    (-32768 ≤ k → k ≤ 32767 → (sat 16 k).toInt = k) ∧
    (7 < k → sat 4 k = 0x7#4) ∧ (k < -8 → sat 4 k = 0x8#4) ∧
    (-8 ≤ k → k ≤ 7 → (sat 4 k).toInt = k)) ∧
  (∀ (rd rs rt : RegNum) (s : State),
    (∃ t, exec (.add rd rs rt) s = .next t ∧
      t.reg rd = if rd = 0#4 then 0x0000#16 else sat 16 ((s.reg rs).toInt + (s.reg rt).toInt)) ∧
    (∃ t k, exec (.sub rd rs rt) s = .next t ∧
      (k = (s.reg rs).toInt - (s.reg rt).toInt ∨ k = (s.reg rt).toInt - (s.reg rs).toInt) ∧
      t.reg rd = if rd = 0#4 then 0x0000#16 else sat 16 k) ∧
    (∃ t, exec (.paddsb rd rs rt) s = .next t ∧
      ∀ j, j < 4 → (t.reg rd).extractLsb' (4 * j) 4 =
        if rd = 0#4 then 0x0#4 else
          sat 4 (((s.reg rs).extractLsb' (4 * j) 4).toInt + ((s.reg rt).extractLsb' (4 * j) 4).toInt)))

/-- 41_compute.md sections 2 and 7 (ADD; R101). Z and N come from the saturated value by the spec's own choice
D3 (log 15). Completion, result, flags and frame. -/
def Obligations.AddWritesTheSaturatedSumAndAllFlags : Prop :=
  ∀ (rd rs rt : RegNum) (s : State),
    decodeWord (0x0000#16 ||| rd.setWidth 16 <<< 8 ||| rs.setWidth 16 <<< 4 ||| rt.setWidth 16) =
      .add rd rs rt ∧
    ∃ (t : State) (k : Int) (r : Word), exec (.add rd rs rt) s = .next t ∧
      k = (s.reg rs).toInt + (s.reg rt).toInt ∧
      r = (if 32767 < k then 0x7FFF#16 else if k < -32768 then 0x8000#16 else BitVec.ofInt 16 k) ∧
      t.reg rd = (if rd = 0#4 then 0x0000#16 else r) ∧
      (t.flags.v = true ↔ (32767 < k ∨ k < -32768)) ∧
      (t.flags.z = true ↔ r = 0x0000#16) ∧ (t.flags.n = true ↔ r.toInt < 0) ∧
      KeepsRegsExcept s t rd ∧ KeepsData s t ∧ KeepsRun s t

/-- 41_compute.md sections 2 and 7 (SUB; R102). The operand order `(rs) - (rt)` is the spec's own choice D2
(log 14), Z and N from the saturated value its choice D3 (log 15). -/
def Obligations.SubWritesTheSaturatedDifferenceAndAllFlags : Prop :=
  ∀ (rd rs rt : RegNum) (s : State),
    decodeWord (0x1000#16 ||| rd.setWidth 16 <<< 8 ||| rs.setWidth 16 <<< 4 ||| rt.setWidth 16) =
      .sub rd rs rt ∧
    ∃ (t : State) (k : Int) (r : Word), exec (.sub rd rs rt) s = .next t ∧
      k = (s.reg rs).toInt - (s.reg rt).toInt ∧
      r = (if 32767 < k then 0x7FFF#16 else if k < -32768 then 0x8000#16 else BitVec.ofInt 16 k) ∧
      t.reg rd = (if rd = 0#4 then 0x0000#16 else r) ∧
      (t.flags.v = true ↔ (32767 < k ∨ k < -32768)) ∧
      (t.flags.z = true ↔ r = 0x0000#16) ∧ (t.flags.n = true ↔ r.toInt < 0) ∧
      KeepsRegsExcept s t rd ∧ KeepsData s t ∧ KeepsRun s t

/-- R103: PADDSB adds four lanes as signed 4-bit numbers, each saturating on its own, and writes no flag. -/
def Obligations.PaddsbAddsFourLanesSaturatingAndKeepsFlags : Prop :=
  ∀ (rd rs rt : RegNum) (s : State),
    decodeWord (0x7000#16 ||| rd.setWidth 16 <<< 8 ||| rs.setWidth 16 <<< 4 ||| rt.setWidth 16) =
      .paddsb rd rs rt ∧
    ∃ (t : State) (r : Word), exec (.paddsb rd rs rt) s = .next t ∧
      (∀ (j : Nat) (k : Int), j < 4 →
        k = ((s.reg rs).extractLsb' (4 * j) 4).toInt + ((s.reg rt).extractLsb' (4 * j) 4).toInt →
        r.extractLsb' (4 * j) 4 =
          (if 7 < k then 0x7#4 else if k < -8 then 0x8#4 else BitVec.ofInt 4 k)) ∧
      t.reg rd = (if rd = 0#4 then 0x0000#16 else r) ∧
      t.flags = s.flags ∧ KeepsRegsExcept s t rd ∧ KeepsData s t ∧ KeepsRun s t

/-- 41_compute.md section 4 (RED; R104, R105), under either setting of `RED_SIGNED` (D4, log 2): the exact sum
of the eight fields, signed, or unsigned and then sign-extended from bit 6. -/
def Obligations.RedSumsEightFieldsUnderEitherSetting : Prop :=
  ∀ (rd rs rt : RegNum) (s : State),
    decodeWord (0x2000#16 ||| rd.setWidth 16 <<< 8 ||| rs.setWidth 16 <<< 4 ||| rt.setWidth 16) =
      .red rd rs rt ∧
    ∃ (t : State) (r : Word), exec (.red rd rs rt) s = .next t ∧
      (s.config.redSigned = true →
        r.toInt = ((s.reg rs).extractLsb' 0 4).toInt + ((s.reg rt).extractLsb' 0 4).toInt +
          ((s.reg rs).extractLsb' 4 4).toInt + ((s.reg rt).extractLsb' 4 4).toInt +
          ((s.reg rs).extractLsb' 8 4).toInt + ((s.reg rt).extractLsb' 8 4).toInt +
          ((s.reg rs).extractLsb' 12 4).toInt + ((s.reg rt).extractLsb' 12 4).toInt) ∧
      (s.config.redSigned = false → ∃ u : Nat,
        u = ((s.reg rs).extractLsb' 0 4).toNat + ((s.reg rt).extractLsb' 0 4).toNat +
          ((s.reg rs).extractLsb' 4 4).toNat + ((s.reg rt).extractLsb' 4 4).toNat +
          ((s.reg rs).extractLsb' 8 4).toNat + ((s.reg rt).extractLsb' 8 4).toNat +
          ((s.reg rs).extractLsb' 12 4).toNat + ((s.reg rt).extractLsb' 12 4).toNat ∧
        r.toInt = if u < 64 then (u : Int) else (u : Int) - 128) ∧
      t.reg rd = (if rd = 0#4 then 0x0000#16 else r) ∧
      t.flags = s.flags ∧ KeepsRegsExcept s t rd ∧ KeepsData s t ∧ KeepsRun s t

/-- 41_compute.md section 4 (R106; the two settings are D4, log 2): the signed sum lies in -64 to 56, so bits
15:6 of the result are all equal; the unsigned sum lies in 0 to 120 and is the low seven bits. -/
def Obligations.RedSumFitsSevenBits : Prop :=
  ∀ a b : Word,
    (-64 ≤ (reduction true a b).toInt ∧ (reduction true a b).toInt ≤ 56) ∧
    (∀ i, 6 ≤ i → i < 16 → (reduction true a b).getLsbD i = (reduction true a b).getLsbD 6) ∧
    unsignedNibbleSum a + unsignedNibbleSum b ≤ 120 ∧
    (reduction false a b).toNat % 128 = unsignedNibbleSum a + unsignedNibbleSum b

/-- 41_compute.md section 4 (R105; D4, log 2): the two settings agree on bits 3:0 always, and on the whole
result exactly when none or all of the eight fields have their top bit set. -/
def Obligations.RedSettingsAgreeExactlyAtNoneOrAllTopBits : Prop :=
  ∀ a b : Word,
    (reduction true a b).extractLsb' 0 4 = (reduction false a b).extractLsb' 0 4 ∧
    (reduction true a b = reduction false a b ↔
      ((a &&& 0x8888#16 = 0x0000#16 ∧ b &&& 0x8888#16 = 0x0000#16) ∨
       (a &&& 0x8888#16 = 0x8888#16 ∧ b &&& 0x8888#16 = 0x8888#16)))

/-- R107: XOR writes the bitwise exclusive or and Z; V and N keep their old values. -/
def Obligations.XorWritesTheExclusiveOrAndZ : Prop :=
  ∀ (rd rs rt : RegNum) (s : State),
    decodeWord (0x3000#16 ||| rd.setWidth 16 <<< 8 ||| rs.setWidth 16 <<< 4 ||| rt.setWidth 16) =
      .xor rd rs rt ∧
    ∃ (t : State) (r : Word), exec (.xor rd rs rt) s = .next t ∧
      (∀ i, r.getLsbD i = ((s.reg rs).getLsbD i != (s.reg rt).getLsbD i)) ∧
      t.reg rd = (if rd = 0#4 then 0x0000#16 else r) ∧
      (t.flags.z = true ↔ r = 0x0000#16) ∧ t.flags.v = s.flags.v ∧ t.flags.n = s.flags.n ∧
      KeepsRegsExcept s t rd ∧ KeepsData s t ∧ KeepsRun s t

/-- R108: SLL multiplies by `2^imm4` and keeps the low 16 bits; Z only. -/
def Obligations.SllShiftsLeftAndWritesZ : Prop :=
  ∀ (rd rs : RegNum) (imm4 : BitVec 4) (s : State),
    decodeWord (0x4000#16 ||| rd.setWidth 16 <<< 8 ||| rs.setWidth 16 <<< 4 ||| imm4.setWidth 16) =
      .sll rd rs imm4 ∧
    ∃ (t : State) (r : Word), exec (.sll rd rs imm4) s = .next t ∧
      r.toNat = (s.reg rs).toNat * 2 ^ imm4.toNat % 65536 ∧
      t.reg rd = (if rd = 0#4 then 0x0000#16 else r) ∧
      (t.flags.z = true ↔ r = 0x0000#16) ∧ t.flags.v = s.flags.v ∧ t.flags.n = s.flags.n ∧
      KeepsRegsExcept s t rd ∧ KeepsData s t ∧ KeepsRun s t

/-- R109: SRA divides the signed value by `2^imm4`, rounding toward minus infinity; Z only. -/
def Obligations.SraDividesRoundingDownAndWritesZ : Prop :=
  ∀ (rd rs : RegNum) (imm4 : BitVec 4) (s : State),
    decodeWord (0x5000#16 ||| rd.setWidth 16 <<< 8 ||| rs.setWidth 16 <<< 4 ||| imm4.setWidth 16) =
      .sra rd rs imm4 ∧
    ∃ (t : State) (r : Word), exec (.sra rd rs imm4) s = .next t ∧
      r.toInt = Int.fdiv (s.reg rs).toInt (2 ^ imm4.toNat) ∧
      t.reg rd = (if rd = 0#4 then 0x0000#16 else r) ∧
      (t.flags.z = true ↔ r = 0x0000#16) ∧ t.flags.v = s.flags.v ∧ t.flags.n = s.flags.n ∧
      KeepsRegsExcept s t rd ∧ KeepsData s t ∧ KeepsRun s t

/-- R110: ROR rotates right by `imm4`: bit `i` of the result is bit `i + imm4`, modulo 16, of the source; Z
only. -/
def Obligations.RorRotatesRightAndWritesZ : Prop :=
  ∀ (rd rs : RegNum) (imm4 : BitVec 4) (s : State),
    decodeWord (0x6000#16 ||| rd.setWidth 16 <<< 8 ||| rs.setWidth 16 <<< 4 ||| imm4.setWidth 16) =
      .ror rd rs imm4 ∧
    ∃ (t : State) (r : Word), exec (.ror rd rs imm4) s = .next t ∧
      (∀ i, i < 16 → r.getLsbD i = (s.reg rs).getLsbD ((i + imm4.toNat) % 16)) ∧
      t.reg rd = (if rd = 0#4 then 0x0000#16 else r) ∧
      (t.flags.z = true ↔ r = 0x0000#16) ∧ t.flags.v = s.flags.v ∧ t.flags.n = s.flags.n ∧
      KeepsRegsExcept s t rd ∧ KeepsData s t ∧ KeepsRun s t

/-! ## Memory instructions -/

/-- 42_memory_instructions.md section 1 (R120; the wrap modulo 2^16 is the spec's choice D5, log 12): the base
with bit 0 cleared plus twice the signed offset. -/
def Obligations.EffectiveAddressIsBasePlusTwiceTheOffset : Prop :=
  ∀ (base : Word) (off4 : BitVec 4),
    ((effectiveAddress base off4).toNat : Int) =
      ((base.toNat : Int) - (base.toNat : Int) % 2 + 2 * off4.toInt) % 65536

/-- R46: the address of a load or store is always even; an odd base is no error, its low bit is ignored. -/
def Obligations.DataAddressesAreAlwaysEven : Prop :=
  ∀ (base : Word) (off4 : BitVec 4),
    (effectiveAddress base off4).toNat % 2 = 0 ∧
    effectiveAddress base off4 = (base &&& 0xFFFE#16) + (off4.signExtend 16 <<< 1) ∧
    effectiveAddress (base ||| 1#16) off4 = effectiveAddress base off4

/-- R45: a write to data memory makes it hold the value at that even address and changes no other location. -/
def Obligations.MemWriteChangesExactlyOneHalfword : Prop :=
  ∀ (s : State) (a v : Word), a.toNat % 2 = 0 →
    (s.memWrite a v).memRead a = v ∧
    (∀ b : Word, b.toNat % 2 = 0 → b ≠ a → (s.memWrite a v).memRead b = s.memRead b) ∧
    KeepsDataOutside s (s.memWrite a v) a ∧
    KeepsRegs s (s.memWrite a v) ∧ (s.memWrite a v).pc = s.pc ∧
    (s.memWrite a v).flags = s.flags ∧ KeepsRun s (s.memWrite a v)

/-- R121: LW loads `rt` with the halfword at the effective address, computed from the old base; `$0` discards
it. What the address is, with its wrap (D5, log 12), is `EffectiveAddressIsBasePlusTwiceTheOffset`. -/
def Obligations.LwLoadsTheAddressedHalfword : Prop :=
  ∀ (rt rs : RegNum) (off4 : BitVec 4) (s : State),
    decodeWord (0x8000#16 ||| rt.setWidth 16 <<< 8 ||| rs.setWidth 16 <<< 4 ||| off4.setWidth 16) =
      .lw rt rs off4 ∧
    ∃ t : State, exec (.lw rt rs off4) s = .next t ∧
      t.reg rt = (if rt = 0#4 then 0x0000#16 else s.memRead (effectiveAddress (s.reg rs) off4)) ∧
      t.flags = s.flags ∧ KeepsRegsExcept s t rt ∧ KeepsData s t ∧ KeepsRun s t

/-- R122: SW stores the whole of `rt` at the effective address, and changes no register, no flag and no other
byte of memory. -/
def Obligations.SwStoresTheRegisterAtTheAddressedHalfword : Prop :=
  ∀ (rt rs : RegNum) (off4 : BitVec 4) (s : State),
    decodeWord (0x9000#16 ||| rt.setWidth 16 <<< 8 ||| rs.setWidth 16 <<< 4 ||| off4.setWidth 16) =
      .sw rt rs off4 ∧
    ∃ t : State, exec (.sw rt rs off4) s = .next t ∧
      t.memRead (effectiveAddress (s.reg rs) off4) = s.reg rt ∧
      KeepsDataOutside s t (effectiveAddress (s.reg rs) off4) ∧
      t.flags = s.flags ∧ KeepsRegs s t ∧ KeepsRun s t

/-- 20_memory.md section 6 (R52; D16, log 25): a load after a store sees the stored value at the same address
and the old value at any other. -/
def Obligations.LoadAfterStoreSeesTheStore : Prop :=
  ∀ (rt rs rd rb : RegNum) (off off' : BitVec 4) (s : State),
    ∃ t u : State, exec (.sw rt rs off) s = .next t ∧ exec (.lw rd rb off') t = .next u ∧
      u.reg rd =
        (if rd = 0#4 then 0x0000#16
         else if effectiveAddress (s.reg rs) off = effectiveAddress (s.reg rb) off' then s.reg rt
         else s.memRead (effectiveAddress (s.reg rb) off'))

/-- 10_state.md section 6 (R36; log 7): a halfword nothing has written or supplied reads the same in every
state, whatever the byte order: an arbitrary value, drawn once. It holds for every value of the free one. -/
def Obligations.UnwrittenDataReadsOneStableValue : Prop :=
  ∀ (s s' : State) (a : Word), a.toNat % 2 = 0 →
    s.dmem.get? a.toNat = none → s.dmem.get? (a.toNat + 1) = none →
    s'.dmem.get? a.toNat = none → s'.dmem.get? (a.toNat + 1) = none →
    s.memRead a = s'.memRead a

/-- R123: LHB puts the immediate in the high byte of `rd` and keeps the low byte. -/
def Obligations.LhbReplacesTheHighByte : Prop :=
  ∀ (rd : RegNum) (imm8 : BitVec 8) (s : State),
    decodeWord (0xA000#16 ||| rd.setWidth 16 <<< 8 ||| imm8.setWidth 16) = .lhb rd imm8 ∧
    ∃ t : State, exec (.lhb rd imm8) s = .next t ∧
      t.reg rd = (if rd = 0#4 then 0x0000#16
        else (s.reg rd &&& 0x00FF#16) ||| (imm8.setWidth 16 <<< 8)) ∧
      t.flags = s.flags ∧ KeepsRegsExcept s t rd ∧ KeepsData s t ∧ KeepsRun s t

/-- R124: LLB puts the immediate in the low byte of `rd`, not sign-extended, and keeps the high byte. -/
def Obligations.LlbReplacesTheLowByte : Prop :=
  ∀ (rd : RegNum) (imm8 : BitVec 8) (s : State),
    decodeWord (0xB000#16 ||| rd.setWidth 16 <<< 8 ||| imm8.setWidth 16) = .llb rd imm8 ∧
    ∃ t : State, exec (.llb rd imm8) s = .next t ∧
      t.reg rd = (if rd = 0#4 then 0x0000#16 else (s.reg rd &&& 0xFF00#16) ||| imm8.setWidth 16) ∧
      t.flags = s.flags ∧ KeepsRegsExcept s t rd ∧ KeepsData s t ∧ KeepsRun s t

/-- 42_memory_instructions.md section 3 (R125, an inference of the spec): LLB and LHB in either order load a
16-bit constant whatever the register held. -/
def Obligations.LlbAndLhbInEitherOrderLoadAConstant : Prop :=
  ∀ (rd : RegNum) (c : Word) (s : State), rd ≠ 0#4 →
    (∃ t u, exec (.llb rd (c.extractLsb' 0 8)) s = .next t ∧
      exec (.lhb rd (c.extractLsb' 8 8)) t = .next u ∧ u.reg rd = c) ∧
    (∃ t u, exec (.lhb rd (c.extractLsb' 8 8)) s = .next t ∧
      exec (.llb rd (c.extractLsb' 0 8)) t = .next u ∧ u.reg rd = c)

/-! ## Control instructions -/

/-- R74, R130: bits 11:9 of B and BR are the condition, and the eight conditions by the value of `ccc` and the
flags. -/
def Obligations.ConditionsFollowTheTable : Prop :=
  (∀ w : Word,
    (w.extractLsb' 12 4 = 0xC#4 →
      decodeWord w = .b (decodeCond (w.extractLsb' 9 3)) (w.extractLsb' 0 9)) ∧
    (w.extractLsb' 12 4 = 0xD#4 →
      decodeWord w = .br (decodeCond (w.extractLsb' 9 3)) (w.extractLsb' 4 4))) ∧
  ∀ f : Flags,
    (condHolds (decodeCond 0b000#3) f = true ↔ f.z = false) ∧
    (condHolds (decodeCond 0b001#3) f = true ↔ f.z = true) ∧
    (condHolds (decodeCond 0b010#3) f = true ↔ (f.z = false ∧ f.n = false)) ∧
    (condHolds (decodeCond 0b011#3) f = true ↔ f.n = true) ∧
    (condHolds (decodeCond 0b100#3) f = true ↔ (f.z = true ∨ (f.z = false ∧ f.n = false))) ∧
    (condHolds (decodeCond 0b101#3) f = true ↔ (f.n = true ∨ f.z = true)) ∧
    (condHolds (decodeCond 0b110#3) f = true ↔ f.v = true) ∧
    condHolds (decodeCond 0b111#3) f = true

/-- 43_control.md section 2 (B; R131), for either setting of `BSHIFT` (D6, log 1) and modulo 2^16 (D5,
log 12): `pc + 2`, plus the signed offset times `2^BSHIFT` when the condition holds. -/
def Obligations.BranchGoesToPcPlusTwoPlusTheOffset : Prop :=
  ∀ (c : Cond) (imm9 : BitVec 9) (s : State),
    decodeWord (0xC000#16 ||| (encodeCond c).setWidth 16 <<< 9 ||| imm9.setWidth 16) = .b c imm9 ∧
    ∃ t : State, exec (.b c imm9) s = .next t ∧
      (t.pc.toNat : Int) =
        (if condHolds c s.flags = true
         then ((s.pc.toNat : Int) + 2 + imm9.toInt * 2 ^ (s.config.bshift : Nat)) % 65536
         else ((s.pc.toNat : Int) + 2) % 65536) ∧
      t.flags = s.flags ∧ KeepsRegs s t ∧ KeepsData s t ∧ KeepsRun s t

/-- 43_control.md section 3 (BR; R132): BR goes to the whole content of `rs`, unmasked, when the condition
holds, else to the next instruction. That its unused bits are ignored is the spec's choice D8 (log 13). -/
def Obligations.BranchRegisterGoesToTheUnmaskedRegister : Prop :=
  ∀ (c : Cond) (rs : RegNum) (x8 : BitVec 1) (x : BitVec 4) (s : State),
    decodeWord (0xD#4 ++ encodeCond c ++ x8 ++ rs ++ x) = .br c rs ∧
    encode (.br c rs) = 0xD#4 ++ encodeCond c ++ 0#1 ++ rs ++ 0#4 ∧
    ∃ t : State, exec (.br c rs) s = .next t ∧
      t.pc = (if condHolds c s.flags = true then s.reg rs else s.pc + 2#16) ∧
      t.flags = s.flags ∧ KeepsRegs s t ∧ KeepsData s t ∧ KeepsRun s t

/-- 43_control.md section 4 (PCS; R133; the wrap at 0xFFFE is D5, log 12): the address of the PCS plus 2 goes
to `rd` and to `pc`; the unused bits are ignored. -/
def Obligations.PcsSavesTheNextProgramCounter : Prop :=
  ∀ (rd : RegNum) (x : BitVec 8) (s : State),
    decodeWord (0xE#4 ++ rd ++ x) = .pcs rd ∧
    ∃ t : State, exec (.pcs rd) s = .next t ∧
      t.pc.toNat = (s.pc.toNat + 2) % 65536 ∧
      t.reg rd = (if rd = 0#4 then 0x0000#16 else t.pc) ∧
      t.flags = s.flags ∧ KeepsRegsExcept s t rd ∧ KeepsData s t ∧ KeepsRun s t

/-- 43_control.md section 5 (HLT; R134; the self-loop is D15, log 17, the ignored bits are D8, log 13): HLT
changes nothing; once the instruction at `pc` is HLT, `hlt` is 1 and no register, flag, memory location or `pc`
ever changes again while `rst_n` stays high. -/
def Obligations.HltFreezesTheMachineUntilReset : Prop :=
  (∀ x : BitVec 12, decodeWord (0xF#4 ++ x) = .hlt) ∧
  (∀ s : State, exec .hlt s = .next s) ∧
  ∀ s : State, s.fetch = .ok .hlt →
    s.hltPin = true ∧
    (s.rstN = true → ∀ n : Nat, Host.Core.run core n s = .next s)

/-- 10_state.md section 2 (R25; the wrap at 0xFFFE is D5, log 12): every instruction other than a taken B, a
taken BR and HLT ends with `pc` two further on. -/
def Obligations.SequentialInstructionsAdvancePcByTwo : Prop :=
  ∀ (i : Instr) (s : State), i ≠ .hlt →
    (∀ c imm9, i = .b c imm9 → condHolds c s.flags = false) →
    (∀ c rs, i = .br c rs → condHolds c s.flags = false) →
    ∃ t : State, exec i s = .next t ∧ t.pc.toNat = (s.pc.toNat + 2) % 65536

/-- 43_control.md section 6 (R135; the fault is the spec's choice D7, log 10; the wrap of the target of B is D5,
log 12, and its setting D6, log 1): a taken BR or a taken B to an odd address (from an even `pc`, a B with an odd
offset under `BSHIFT = 0`) completes, and the step after is the fault `misalignedFetch` with that address. -/
def Obligations.TakenBranchToAnOddAddressFaultsNext : Prop :=
  (∀ (c : Cond) (rs : RegNum) (s : State),
    s.rstN = true → condHolds c s.flags = true → (s.reg rs).toNat % 2 = 1 →
    ∃ t : State, exec (.br c rs) s = .next t ∧ t.pc = s.reg rs ∧
      step t = .fault (.misalignedFetch (s.reg rs))) ∧
  (∀ (c : Cond) (imm9 : BitVec 9) (s : State),
    s.rstN = true → condHolds c s.flags = true →
    ((s.pc.toNat : Int) + 2 + imm9.toInt * 2 ^ (s.config.bshift : Nat)) % 2 = 1 →
    ∃ t : State, exec (.b c imm9) s = .next t ∧
      (t.pc.toNat : Int) =
        ((s.pc.toNat : Int) + 2 + imm9.toInt * 2 ^ (s.config.bshift : Nat)) % 65536 ∧
      step t = .fault (.misalignedFetch t.pc))

/-- 43_control.md section 1 (R139, an inference of the spec; D2, log 14): after SUB, with any destination, six
conditions compare the operands as signed numbers, also where the difference overflows. -/
def Obligations.ConditionsAfterSubCompareSigned : Prop :=
  ∀ (rd rs rt : RegNum) (s : State), ∃ t : State, exec (.sub rd rs rt) s = .next t ∧
    (condHolds .eq t.flags = true ↔ (s.reg rs).toInt = (s.reg rt).toInt) ∧
    (condHolds .neq t.flags = true ↔ (s.reg rs).toInt ≠ (s.reg rt).toInt) ∧
    (condHolds .gt t.flags = true ↔ (s.reg rt).toInt < (s.reg rs).toInt) ∧
    (condHolds .lt t.flags = true ↔ (s.reg rs).toInt < (s.reg rt).toInt) ∧
    (condHolds .gte t.flags = true ↔ (s.reg rt).toInt ≤ (s.reg rs).toInt) ∧
    (condHolds .lte t.flags = true ↔ (s.reg rs).toInt ≤ (s.reg rt).toInt)

/-! ## Whole-machine rules -/

/-- R22: an instruction writes no register but the one its row lists, and reads no register its row does not
list: changing such a register beforehand changes nothing else afterwards. -/
def Obligations.InstructionsReadAndWriteOnlyListedRegisters : Prop :=
  ∀ (i : Instr) (s : State), ∃ t : State, exec i s = .next t ∧
    (∀ q : RegNum, writesReg i ≠ some q → t.reg q = s.reg q) ∧
    (∀ (q : RegNum) (v : Word), q ∉ readsRegs i →
      (writesReg i = some q → exec i (s.setReg q v) = .next t) ∧
      (writesReg i ≠ some q → exec i (s.setReg q v) = .next (t.setReg q v)))

/-- R30: an instruction keeps every flag its row does not list, sets those it lists whatever they were, and no
instruction but B and BR reads a flag. -/
def Obligations.FlagsAreWrittenAndReadAsTheTableSays : Prop :=
  ∀ (i : Instr) (s : State), ∃ t : State, exec i s = .next t ∧
    (writesZ i = false → t.flags.z = s.flags.z) ∧
    (writesVN i = false → t.flags.v = s.flags.v ∧ t.flags.n = s.flags.n) ∧
    (readsFlags i = false → ∀ f : Flags,
      exec i (s.setFlags f) = .next (t.setFlags
        { z := if writesZ i then t.flags.z else f.z
          v := if writesVN i then t.flags.v else f.v
          n := if writesVN i then t.flags.n else f.n }))

/-- 10_state.md section 2 (R27; that `pc + 2` wraps is the spec's choice D5, log 12): the output `pc[15:0]` is
the state's `pc`. From another `pc`, an instruction gives the same state but for `pc`, and but for the register
PCS writes, which gets that `pc` plus 2. Of the instructions other than B, a taken BR ends with the same `pc`,
HLT with the old one, every other with the old one plus 2. A B adds the same to either. No instruction but BR
takes its new `pc` from a register. -/
def Obligations.PcIsVisibleAndReadOnlyByPcsAndB : Prop :=
  (∀ s : State, s.pcPin = s.pc) ∧
  (∀ (i : Instr) (s : State) (p : Word), (∀ rd, i ≠ .pcs rd) →
    ∃ t t' : State, exec i s = .next t ∧ exec i (s.setPc p) = .next t' ∧ t'.setPc t.pc = t ∧
      ((∀ c imm9, i ≠ .b c imm9) →
        ((∃ c rs, i = .br c rs ∧ condHolds c s.flags = true) ∧ t'.pc = t.pc) ∨
        (i = .hlt ∧ t.pc = s.pc ∧ t'.pc = p) ∨
        (t.pc = s.pc + 2#16 ∧ t'.pc = p + 2#16))) ∧
  (∀ (c : Cond) (imm9 : BitVec 9) (s : State) (p : Word),
    ∃ (t t' : State) (d : Word), exec (.b c imm9) s = .next t ∧ exec (.b c imm9) (s.setPc p) = .next t' ∧
      t.pc = s.pc + 2#16 + d ∧ t'.pc = p + 2#16 + d) ∧
  (∀ (rd : RegNum) (s : State) (p : Word), ∃ t : State, exec (.pcs rd) s = .next t ∧
    exec (.pcs rd) (s.setPc p) = .next ((t.setReg rd (p + 2#16)).setPc (p + 2#16))) ∧
  (∀ (i : Instr) (s : State) (q : RegNum) (v : Word), (∀ c rs, i ≠ .br c rs) →
    ∃ t t' : State, exec i s = .next t ∧ exec i (s.setReg q v) = .next t' ∧ t'.pc = t.pc)

/-- 10_state.md section 5 (R32): only SW changes data memory and only LW reads it. What SW leaves at its
effective address, and everything outside it, does not depend on what data memory held at the address. -/
def Obligations.OnlySwChangesAndOnlyLwReadsDataMemory : Prop :=
  ∀ (i : Instr) (s : State), ∃ t : State, exec i s = .next t ∧
    ((∀ rt rs off4, i ≠ .sw rt rs off4) → KeepsData s t) ∧
    ((∀ rt rs off4, i ≠ .lw rt rs off4) → ∀ m : Memory,
      ∃ t' : State, exec i { s with dmem := m } = .next t' ∧ { t' with dmem := t.dmem } = t ∧
        ∀ rt rs off4, i = .sw rt rs off4 →
          t'.memRead (effectiveAddress (s.reg rs) off4) = t.memRead (effectiveAddress (s.reg rs) off4) ∧
          KeepsDataOutside { s with dmem := m } t' (effectiveAddress (s.reg rs) off4))

/-- 20_memory.md sections 1 and 6 (R40, R54) and 10_state.md section 5 (R33; log 9): no step writes
instruction memory or a parameter, and no instruction reads instruction memory, so a store is never seen by a
fetch and a load never reads the program. -/
def Obligations.NothingWritesInstructionMemoryAndNoInstructionReadsIt : Prop :=
  (∀ s t : State, step s = .next t → t.imem = s.imem ∧ t.config = s.config) ∧
  (∀ (i : Instr) (s : State) (m : Memory), ∃ t : State, exec i s = .next t ∧
    exec i { s with imem := m } = .next { t with imem := m })

/-- 60_exceptions.md sections 1 and 2 (R150, R152, R153; the two faults are the spec's choices D7, D11, logs 10
and 11): a step is never refused, and it faults exactly when `rst_n` is high and the fetch is impossible. -/
def Obligations.TheOnlyFaultsAreTheTwoFetchFaults : Prop :=
  ∀ s : State, (∀ r : Refusal, step s ≠ .refused r) ∧
    ∀ f : Fault, step s = .fault f ↔
      (s.rstN = true ∧
        ((s.pc.toNat % 2 = 1 ∧ f = .misalignedFetch s.pc) ∨
         (s.pc.toNat % 2 = 0 ∧ s.imemRead s.pc = none ∧ f = .fetchOutsideImage s.pc)))

/-- 10_state.md section 2 (R26; log 10): from an even `pc`, a step makes `pc` odd only by a taken BR to an odd
value, or by a taken B with an odd offset when `BSHIFT = 0`. -/
def Obligations.PcBecomesOddOnlyThroughATakenBranch : Prop :=
  ∀ s t : State, s.pc.toNat % 2 = 0 → step s = .next t → t.pc.toNat % 2 = 1 →
    (∃ c rs, s.fetch = .ok (.br c rs) ∧ condHolds c s.flags = true ∧ (s.reg rs).toNat % 2 = 1) ∨
    (∃ c imm9, s.fetch = .ok (.b c imm9) ∧ condHolds c s.flags = true ∧
      imm9.toNat % 2 = 1 ∧ s.config.bshift = 0)

/-- 20_memory.md sections 1 and 4 (R42, R50), in the model's representation (log 9): every step keeps both
memories in canonical form, strictly rising 16-bit addresses, from every state that has it. -/
def Obligations.EveryStepKeepsTheMemoriesCanonical : Prop :=
  ∀ s t : State, Canonical s → step s = .next t → Canonical t

/-- The model's representation (log 9): the memories of the reset state are canonical. -/
def Obligations.ResetMemoriesAreCanonical : Prop := Canonical State.reset

/-- 20_memory.md section 3 (R48; D9, log 8): no program can observe the byte order. Two states that differ only
in it take the same step and still differ only in it. -/
def Obligations.ByteOrderIsUnobservable : Prop :=
  ∀ s s' : State, SameButByteOrder s s' →
    s'.hltPin = s.hltPin ∧
    (∀ t, step s = .next t → ∃ t', step s' = .next t' ∧ SameButByteOrder t t') ∧
    (∀ f, step s = .fault f → step s' = .fault f)

/-! ## Reset, pins and the host -/

/-- 10_state.md section 6 (R34) and 70_reset_and_hazards.md section 1: `pc` is 0x0000 after reset: in the state
after reset, and after a low on `rst_n` in any state. That the reset is one step, after which `rst_n` is high
again, is log 5 (D17). -/
def Obligations.ResetStartsExecutionAtAddressZero : Prop :=
  State.reset.pc = 0x0000#16 ∧
  ∀ s : State, ∃ t : State, step s.pulseReset = .next t ∧ t.pc = 0x0000#16 ∧ t.rstN = true

/-- 70_reset_and_hazards.md section 1 (R170, R171; D17, log 5) and 10_state.md section 6 (R35, R36; logs 3, 4,
6): while `rst_n` is low the step is the Reset event, whatever `pc` and the memories hold. Registers and flags
take their settings; an unspecified one carries nothing over from before; memories and parameters stay. -/
def Obligations.ResetEventTakesTheSettingsAndKeepsTheMemories : Prop :=
  ∀ s : State, s.rstN = false →
    ∃ t : State, step s = .next t ∧ t.pc = 0x0000#16 ∧ t.reg 0#4 = 0x0000#16 ∧
      (∀ (k : Fin 15) (v : Word), s.config.resetGpr[k] = some v →
        t.reg (BitVec.ofNat 4 (k + 1)) = v) ∧
      (∀ b, s.config.resetZ = some b → t.flags.z = b) ∧
      (∀ b, s.config.resetV = some b → t.flags.v = b) ∧
      (∀ b, s.config.resetN = some b → t.flags.n = b) ∧
      KeepsData s t ∧ t.imem = s.imem ∧ t.config = s.config ∧ t.rstN = true ∧
      (∀ s' : State, s'.rstN = false → s'.config = s.config → s'.draws = s.draws →
        ∃ t' : State, step s' = .next t' ∧ t'.regs = t.regs ∧ t'.flags = t.flags)

/-- 60_exceptions.md section 5 (R162; D15, log 17): `hlt` is 1 exactly in the states whose current instruction
is HLT: `pc` is even and the word there has bits 15:12 equal to 1111. -/
def Obligations.HltPinIsHighExactlyAtAnHltWord : Prop :=
  ∀ s : State, s.hltPin = true ↔
    (s.pc.toNat % 2 = 0 ∧ ∃ w : Word, s.imemRead s.pc = some w ∧ w.extractLsb' 12 4 = 0xF#4)

/-- 43_control.md section 6 (R136; D15, log 17): a run has at most one final state. -/
def Obligations.ARunHasAtMostOneFinalState : Prop :=
  ∀ s t t' : State, EndsIn s t → EndsIn s t' → t = t'

/-- 60_exceptions.md section 5 (R164), 10_state.md sections 5 and 6 (R33, R36; logs 7 and 9): after the host
loads well-formed images, instruction memory holds exactly the program, and data memory exactly the data, every
other halfword of it reading as its free value, whatever that is. -/
def Obligations.LoadedImagesAreWhatTheMachineReads : Prop :=
  ∀ (s : State) (img : Image), img.wellFormed = true →
    (∀ p ∈ img, (s.loadImem img).imemRead (BitVec.ofNat 16 p.1) = some p.2 ∧
      (s.loadDmem img).memRead (BitVec.ofNat 16 p.1) = p.2) ∧
    (∀ a : Word, a.toNat % 2 = 0 → (∀ p ∈ img, p.1 ≠ a.toNat) →
      (s.loadImem img).imemRead a = none ∧
      (s.loadDmem img).memRead a = Config.unwrittenHalf a)
end

