-- ==== Sys2Proof/Laws/State.lean ====
section
/-!
SUPPORT. One lemma per field per update of the state, so that no later proof unfolds a record update.
-/

namespace Sys2Proof.Laws

open Sys2Proof.Machine

/-! ## `setReg` -/
@[simp] theorem setReg_pc (s : State) (r : RegNum) (v : Word) : (s.setReg r v).pc = s.pc := rfl
@[simp] theorem setReg_flags (s : State) (r : RegNum) (v : Word) : (s.setReg r v).flags = s.flags := rfl
@[simp] theorem setReg_dmem (s : State) (r : RegNum) (v : Word) : (s.setReg r v).dmem = s.dmem := rfl
@[simp] theorem setReg_imem (s : State) (r : RegNum) (v : Word) : (s.setReg r v).imem = s.imem := rfl
@[simp] theorem setReg_config (s : State) (r : RegNum) (v : Word) : (s.setReg r v).config = s.config := rfl
@[simp] theorem setReg_rstN (s : State) (r : RegNum) (v : Word) : (s.setReg r v).rstN = s.rstN := rfl
@[simp] theorem setReg_draws (s : State) (r : RegNum) (v : Word) : (s.setReg r v).draws = s.draws := rfl

/-! ## `setPc` -/
@[simp] theorem setPc_regs (s : State) (v : Word) : (s.setPc v).regs = s.regs := rfl
@[simp] theorem setPc_pc (s : State) (v : Word) : (s.setPc v).pc = v := rfl
@[simp] theorem setPc_flags (s : State) (v : Word) : (s.setPc v).flags = s.flags := rfl
@[simp] theorem setPc_dmem (s : State) (v : Word) : (s.setPc v).dmem = s.dmem := rfl
@[simp] theorem setPc_imem (s : State) (v : Word) : (s.setPc v).imem = s.imem := rfl
@[simp] theorem setPc_config (s : State) (v : Word) : (s.setPc v).config = s.config := rfl
@[simp] theorem setPc_rstN (s : State) (v : Word) : (s.setPc v).rstN = s.rstN := rfl
@[simp] theorem setPc_draws (s : State) (v : Word) : (s.setPc v).draws = s.draws := rfl
@[simp] theorem setPc_reg (s : State) (v : Word) (q : RegNum) : (s.setPc v).reg q = s.reg q := rfl

/-! ## `advance` -/
@[simp] theorem advance_regs (s : State) : s.advance.regs = s.regs := rfl
@[simp] theorem advance_pc (s : State) : s.advance.pc = nextPc s.pc := rfl
@[simp] theorem advance_flags (s : State) : s.advance.flags = s.flags := rfl
@[simp] theorem advance_dmem (s : State) : s.advance.dmem = s.dmem := rfl
@[simp] theorem advance_imem (s : State) : s.advance.imem = s.imem := rfl
@[simp] theorem advance_config (s : State) : s.advance.config = s.config := rfl
@[simp] theorem advance_rstN (s : State) : s.advance.rstN = s.rstN := rfl
@[simp] theorem advance_draws (s : State) : s.advance.draws = s.draws := rfl
@[simp] theorem advance_reg (s : State) (q : RegNum) : s.advance.reg q = s.reg q := rfl

/-! ## `setFlags` -/
@[simp] theorem setFlags_regs (s : State) (f : Flags) : (s.setFlags f).regs = s.regs := rfl
@[simp] theorem setFlags_pc (s : State) (f : Flags) : (s.setFlags f).pc = s.pc := rfl
@[simp] theorem setFlags_flags (s : State) (f : Flags) : (s.setFlags f).flags = f := rfl
@[simp] theorem setFlags_dmem (s : State) (f : Flags) : (s.setFlags f).dmem = s.dmem := rfl
@[simp] theorem setFlags_imem (s : State) (f : Flags) : (s.setFlags f).imem = s.imem := rfl
@[simp] theorem setFlags_config (s : State) (f : Flags) : (s.setFlags f).config = s.config := rfl
@[simp] theorem setFlags_rstN (s : State) (f : Flags) : (s.setFlags f).rstN = s.rstN := rfl
@[simp] theorem setFlags_draws (s : State) (f : Flags) : (s.setFlags f).draws = s.draws := rfl
@[simp] theorem setFlags_reg (s : State) (f : Flags) (q : RegNum) : (s.setFlags f).reg q = s.reg q := rfl

/-! ## `memWrite` -/
@[simp] theorem memWrite_regs (s : State) (a v : Word) : (s.memWrite a v).regs = s.regs := rfl
@[simp] theorem memWrite_pc (s : State) (a v : Word) : (s.memWrite a v).pc = s.pc := rfl
@[simp] theorem memWrite_flags (s : State) (a v : Word) : (s.memWrite a v).flags = s.flags := rfl
@[simp] theorem memWrite_dmem (s : State) (a v : Word) :
    (s.memWrite a v).dmem = s.dmem.setHalf s.config.byteOrder a v := rfl
@[simp] theorem memWrite_imem (s : State) (a v : Word) : (s.memWrite a v).imem = s.imem := rfl
@[simp] theorem memWrite_config (s : State) (a v : Word) : (s.memWrite a v).config = s.config := rfl
@[simp] theorem memWrite_rstN (s : State) (a v : Word) : (s.memWrite a v).rstN = s.rstN := rfl
@[simp] theorem memWrite_draws (s : State) (a v : Word) : (s.memWrite a v).draws = s.draws := rfl
@[simp] theorem memWrite_reg (s : State) (a v : Word) (q : RegNum) :
    (s.memWrite a v).reg q = s.reg q := rfl

/-! ## `finishArith` -/
@[simp] theorem finishArith_pc (s : State) (rd : RegNum) (k : Int) :
    (s.finishArith rd k).pc = nextPc s.pc := rfl
@[simp] theorem finishArith_flags (s : State) (rd : RegNum) (k : Int) :
    (s.finishArith rd k).flags = arithFlags k (sat 16 k) := rfl
@[simp] theorem finishArith_dmem (s : State) (rd : RegNum) (k : Int) :
    (s.finishArith rd k).dmem = s.dmem := rfl
@[simp] theorem finishArith_imem (s : State) (rd : RegNum) (k : Int) :
    (s.finishArith rd k).imem = s.imem := rfl
@[simp] theorem finishArith_config (s : State) (rd : RegNum) (k : Int) :
    (s.finishArith rd k).config = s.config := rfl
@[simp] theorem finishArith_rstN (s : State) (rd : RegNum) (k : Int) :
    (s.finishArith rd k).rstN = s.rstN := rfl
@[simp] theorem finishArith_draws (s : State) (rd : RegNum) (k : Int) :
    (s.finishArith rd k).draws = s.draws := rfl
@[simp] theorem finishArith_reg (s : State) (rd : RegNum) (k : Int) (q : RegNum) :
    (s.finishArith rd k).reg q = (s.setReg rd (sat 16 k)).reg q := rfl

/-! ## `finishLogic` -/
@[simp] theorem finishLogic_pc (s : State) (rd : RegNum) (r : Word) :
    (s.finishLogic rd r).pc = nextPc s.pc := rfl
@[simp] theorem finishLogic_flags (s : State) (rd : RegNum) (r : Word) :
    (s.finishLogic rd r).flags = logicFlags s.flags r := rfl
@[simp] theorem finishLogic_dmem (s : State) (rd : RegNum) (r : Word) :
    (s.finishLogic rd r).dmem = s.dmem := rfl
@[simp] theorem finishLogic_imem (s : State) (rd : RegNum) (r : Word) :
    (s.finishLogic rd r).imem = s.imem := rfl
@[simp] theorem finishLogic_config (s : State) (rd : RegNum) (r : Word) :
    (s.finishLogic rd r).config = s.config := rfl
@[simp] theorem finishLogic_rstN (s : State) (rd : RegNum) (r : Word) :
    (s.finishLogic rd r).rstN = s.rstN := rfl
@[simp] theorem finishLogic_draws (s : State) (rd : RegNum) (r : Word) :
    (s.finishLogic rd r).draws = s.draws := rfl
@[simp] theorem finishLogic_reg (s : State) (rd : RegNum) (r : Word) (q : RegNum) :
    (s.finishLogic rd r).reg q = (s.setReg rd r).reg q := rfl

/-! ## `finishPlain` -/
@[simp] theorem finishPlain_pc (s : State) (rd : RegNum) (r : Word) :
    (s.finishPlain rd r).pc = nextPc s.pc := rfl
@[simp] theorem finishPlain_flags (s : State) (rd : RegNum) (r : Word) :
    (s.finishPlain rd r).flags = s.flags := rfl
@[simp] theorem finishPlain_dmem (s : State) (rd : RegNum) (r : Word) :
    (s.finishPlain rd r).dmem = s.dmem := rfl
@[simp] theorem finishPlain_imem (s : State) (rd : RegNum) (r : Word) :
    (s.finishPlain rd r).imem = s.imem := rfl
@[simp] theorem finishPlain_config (s : State) (rd : RegNum) (r : Word) :
    (s.finishPlain rd r).config = s.config := rfl
@[simp] theorem finishPlain_rstN (s : State) (rd : RegNum) (r : Word) :
    (s.finishPlain rd r).rstN = s.rstN := rfl
@[simp] theorem finishPlain_draws (s : State) (rd : RegNum) (r : Word) :
    (s.finishPlain rd r).draws = s.draws := rfl
@[simp] theorem finishPlain_reg (s : State) (rd : RegNum) (r : Word) (q : RegNum) :
    (s.finishPlain rd r).reg q = (s.setReg rd r).reg q := rfl

/-! ## `resetEvent` and the moves of the host -/
@[simp] theorem resetEvent_pc (s : State) : (resetEvent s).pc = 0x0000#16 := rfl
@[simp] theorem resetEvent_dmem (s : State) : (resetEvent s).dmem = s.dmem := rfl
@[simp] theorem resetEvent_imem (s : State) : (resetEvent s).imem = s.imem := rfl
@[simp] theorem resetEvent_config (s : State) : (resetEvent s).config = s.config := rfl
@[simp] theorem resetEvent_rstN (s : State) : (resetEvent s).rstN = true := rfl
@[simp] theorem resetEvent_draws (s : State) : (resetEvent s).draws = s.draws + 1 := rfl
@[simp] theorem resetEvent_regs (s : State) : (resetEvent s).regs = resetRegs s.config s.draws := rfl
@[simp] theorem pulseReset_rstN (s : State) : s.pulseReset.rstN = false := rfl
@[simp] theorem pulseReset_dmem (s : State) : s.pulseReset.dmem = s.dmem := rfl
@[simp] theorem pulseReset_imem (s : State) : s.pulseReset.imem = s.imem := rfl
@[simp] theorem pulseReset_config (s : State) : s.pulseReset.config = s.config := rfl
@[simp] theorem withFetchWord_pc (s : State) (nbits w : Nat) : (s.withFetchWord nbits w).pc = s.pc := rfl
@[simp] theorem withFetchWord_rstN (s : State) (nbits w : Nat) :
    (s.withFetchWord nbits w).rstN = true := rfl
@[simp] theorem withFetchWord_config (s : State) (nbits w : Nat) :
    (s.withFetchWord nbits w).config = s.config := rfl

end Sys2Proof.Laws
end

