-- ==== Sys2Proof/Laws/Memory.lean ====
section
/-!
SUPPORT. The basic laws of a memory: a write is read back and leaves every other place alone, and every
operation keeps the canonical form.
-/

namespace Sys2Proof.Laws

open Sys2Proof.Machine

/-! ## Bytes and halfwords -/

@[simp] theorem wordOfBytes_bytesOfWord (o : ByteOrder) (w : Word) :
    wordOfBytes o (bytesOfWord o w).1 (bytesOfWord o w).2 = w := by
  have h : (w.extractLsb' 8 8 ++ w.extractLsb' 0 8 : Word) = w := by
    apply BitVec.eq_of_getLsbD_eq
    intro i hi
    rw [BitVec.getLsbD_append]
    by_cases h8 : i < 8
    · simp [h8]
    · have e : 8 + (i - 8) = i := by omega
      have h8' : i - 8 < 8 := by omega
      simp [h8, h8', e]
  cases o <;> exact h

/-- The halfword after an even address stays in the address space and is the odd address. -/
theorem toNat_succ_of_even {a : Word} (h : a.toNat % 2 = 0) : (a + 1#16).toNat = a.toNat + 1 := by
  have := a.isLt
  rw [BitVec.toNat_add, BitVec.toNat_ofNat]
  omega

/-! ## One byte -/

@[simp] theorem get?_nil (a : Nat) : Memory.get? [] a = none := rfl

/-- What a byte reads after a write. -/
theorem get?_set (m : Memory) (a b : Nat) (v : Byte) :
    (m.set a v).get? b = if b = a then some v else m.get? b := by
  induction m with
  | nil =>
    by_cases h : b = a
    · simp [Memory.set, Memory.get?, h]
    · simp [Memory.set, Memory.get?, h, Ne.symm h]
  | cons c rest ih =>
    obtain ⟨x, w⟩ := c
    by_cases h1 : a < x
    · by_cases h : b = a
      · subst h; simp [Memory.set, Memory.get?, h1]
      · simp [Memory.set, Memory.get?, h1, h, Ne.symm h]
    · by_cases h2 : a = x
      · subst h2
        by_cases h : b = a
        · subst h; simp [Memory.set, Memory.get?]
        · simp [Memory.set, Memory.get?, h, Ne.symm h]
      · by_cases h3 : x = b
        · subst h3
          simp [Memory.set, Memory.get?, h1, h2, Ne.symm h2]
        · simp [Memory.set, Memory.get?, h1, h2, h3, ih]

/-- A write keeps the canonical form from any lower bound at or below its address. -/
theorem wfFrom_set {lo : Nat} {m : Memory} {a : Nat} (v : Byte) (hm : Memory.wfFrom lo m = true)
    (hlo : lo ≤ a) (ha : a < 65536) : Memory.wfFrom lo (m.set a v) = true := by
  induction m generalizing lo with
  | nil => simp [Memory.set, Memory.wfFrom, hlo, ha]
  | cons c rest ih =>
    obtain ⟨x, w⟩ := c
    simp only [Memory.wfFrom, Bool.and_eq_true, decide_eq_true_eq] at hm
    obtain ⟨⟨h1, h2⟩, h3⟩ := hm
    simp only [Memory.set]
    split
    · simp only [Memory.wfFrom, Bool.and_eq_true, decide_eq_true_eq]
      exact ⟨⟨hlo, ha⟩, ⟨⟨by omega, h2⟩, h3⟩⟩
    · split
      · rename_i e
        subst e
        simp only [Memory.wfFrom, Bool.and_eq_true, decide_eq_true_eq]
        exact ⟨⟨hlo, ha⟩, h3⟩
      · simp only [Memory.wfFrom, Bool.and_eq_true, decide_eq_true_eq]
        exact ⟨⟨h1, h2⟩, ih h3 (by omega)⟩

/-- Every write to a 16-bit address keeps the canonical form. -/
theorem wf_set {m : Memory} (a : Nat) (v : Byte) (hm : m.wf = true) (ha : a < 65536) :
    (m.set a v).wf = true := wfFrom_set v hm (Nat.zero_le a) ha

/-! ## One halfword -/

/-- A halfword write keeps the canonical form. -/
theorem wf_setHalf (o : ByteOrder) {m : Memory} (a v : Word) (hm : m.wf = true) :
    (m.setHalf o a v).wf = true :=
  wf_set _ _ (wf_set _ _ hm a.isLt) (a + 1#16).isLt

/-- What a byte reads after a halfword write at an even address. -/
theorem get?_setHalf (o : ByteOrder) (m : Memory) {a : Word} (v : Word) (ha : a.toNat % 2 = 0) (b : Nat) :
    (m.setHalf o a v).get? b =
      if b = a.toNat + 1 then some (bytesOfWord o v).2
      else if b = a.toNat then some (bytesOfWord o v).1 else m.get? b := by
  simp only [Memory.setHalf, get?_set, toNat_succ_of_even ha]

/-- The halfword written is the halfword listed. -/
theorem half?_setHalf_same (o : ByteOrder) (m : Memory) {a : Word} (v : Word) (ha : a.toNat % 2 = 0) :
    (m.setHalf o a v).half? o a = some v := by
  simp [Memory.half?, get?_setHalf o m v ha, toNat_succ_of_even ha]

/-- A halfword at another even address is listed as before. -/
theorem half?_setHalf_ne (o : ByteOrder) (m : Memory) {a b : Word} (v : Word) (ha : a.toNat % 2 = 0)
    (hb : b.toNat % 2 = 0) (h : b ≠ a) : (m.setHalf o a v).half? o b = m.half? o b := by
  have hn : b.toNat ≠ a.toNat := fun e => h (BitVec.eq_of_toNat_eq e)
  have h1 : b.toNat ≠ a.toNat + 1 := by omega
  have h2 : b.toNat + 1 ≠ a.toNat := by omega
  simp [Memory.half?, get?_setHalf o m v ha, toNat_succ_of_even hb, hn, h1, h2]

/-- The halfword written is the halfword read. -/
theorem readHalf_setHalf_same (o : ByteOrder) (m : Memory) {a : Word} (v : Word)
    (ha : a.toNat % 2 = 0) : (m.setHalf o a v).readHalf o a = v := by
  simp [Memory.readHalf, Memory.readByte, get?_setHalf o m v ha, toNat_succ_of_even ha]

/-- A halfword at another even address reads as before. -/
theorem readHalf_setHalf_ne (o : ByteOrder) (m : Memory) {a b : Word} (v : Word)
    (ha : a.toNat % 2 = 0) (hb : b.toNat % 2 = 0) (h : b ≠ a) :
    (m.setHalf o a v).readHalf o b = m.readHalf o b := by
  have hn : b.toNat ≠ a.toNat := fun e => h (BitVec.eq_of_toNat_eq e)
  have h1 : b.toNat ≠ a.toNat + 1 := by omega
  have h2 : b.toNat + 1 ≠ a.toNat := by omega
  simp [Memory.readHalf, Memory.readByte, get?_setHalf o m v ha, toNat_succ_of_even hb, hn, h1, h2]

/-- The memory made of an image is canonical. -/
theorem wf_toMemory (o : ByteOrder) (img : Image) : (Image.toMemory o img).wf = true := by
  induction img with
  | nil => rfl
  | cons c rest ih => exact wf_setHalf o _ _ ih

/-- A halfword nothing has written or supplied reads as its free value (`10_state.md` R36). -/
theorem readHalf_unlisted (o : ByteOrder) {m : Memory} {a : Word} (ha : a.toNat % 2 = 0)
    (h0 : m.get? a.toNat = none) (h1 : m.get? (a.toNat + 1) = none) :
    m.readHalf o a = Config.unwrittenHalf a := by
  have e : (a.toNat + 1) % 2 ≠ 0 := by omega
  simp [Memory.readHalf, Memory.readByte, unwrittenByte, toNat_succ_of_even ha, h0, h1, ha, e]

end Sys2Proof.Laws
end

