-- ==== Sys2Proof/Laws/Registers.lean ====
section
/-! SUPPORT. Reading and writing the register file: `$0` is hardwired, the others are independent cells. -/

namespace Sys2Proof.Laws

open Sys2Proof.Machine

/-- `$0` reads 0x0000 in every state (`10_state.md` R21). -/
@[simp] theorem reg_zero (s : State) : s.reg 0#4 = 0x0000#16 := rfl

/-- A write to `$0` is discarded (R21). -/
@[simp] theorem setReg_zero (s : State) (v : Word) : s.setReg 0#4 v = s := rfl

/-- Distinct registers other than `$0` have distinct slots. -/
theorem slot_ne {q r : RegNum} (hq : q ≠ 0#4) (hr : r ≠ 0#4) (h : q ≠ r) :
    r.toNat - 1 ≠ q.toNat - 1 := by
  have hq' : q.toNat ≠ 0 := fun e => hq (BitVec.eq_of_toNat_eq e)
  have hr' : r.toNat ≠ 0 := fun e => hr (BitVec.eq_of_toNat_eq e)
  have h' : q.toNat ≠ r.toNat := fun e => h (BitVec.eq_of_toNat_eq e)
  omega

/-- A written register reads the value written, unless it is `$0`. -/
theorem reg_setReg_same (s : State) (r : RegNum) (v : Word) :
    (s.setReg r v).reg r = if r = 0#4 then 0x0000#16 else v := by
  by_cases hr : r = 0#4
  · subst hr; rfl
  · simp [State.reg, State.setReg, hr]

/-- Every other register reads as before. -/
theorem reg_setReg_ne (s : State) {q r : RegNum} (v : Word) (h : q ≠ r) :
    (s.setReg r v).reg q = s.reg q := by
  by_cases hr : r = 0#4
  · subst hr; rfl
  · by_cases hq : q = 0#4
    · subst hq; rfl
    · simp only [State.reg, State.setReg, hq, hr, if_false]
      exact Vector.getElem_set_ne _ _ (slot_ne hq hr h)

/-- What a register reads after a write, in one equation. -/
theorem reg_setReg (s : State) (q r : RegNum) (v : Word) :
    (s.setReg r v).reg q = if q = r ∧ q ≠ 0#4 then v else s.reg q := by
  by_cases h : q = r
  · subst h
    rw [reg_setReg_same]
    by_cases hq : q = 0#4
    · subst hq; rfl
    · simp [hq]
  · rw [reg_setReg_ne s v h]
    simp [h]

/-- A later write to the same register wins. -/
theorem setReg_setReg_same (s : State) (r : RegNum) (v w : Word) :
    (s.setReg r v).setReg r w = s.setReg r w := by
  by_cases hr : r = 0#4
  · subst hr; rfl
  · simp [State.setReg, hr]

/-- Writes to different registers commute. -/
theorem setReg_comm (s : State) {q r : RegNum} (v w : Word) (h : q ≠ r) :
    (s.setReg q v).setReg r w = (s.setReg r w).setReg q v := by
  by_cases hr : r = 0#4
  · subst hr; rfl
  · by_cases hq : q = 0#4
    · subst hq; rfl
    · have := slot_ne hq hr h
      simp [State.setReg, hq, hr, Vector.set_comm v w this.symm]

/-- Two register files that read alike are equal. -/
theorem regs_ext {s t : State} (h : ∀ q : RegNum, t.reg q = s.reg q) : t.regs = s.regs := by
  apply Vector.ext
  intro i hi
  have hi' : i + 1 < 16 := by omega
  have := h (BitVec.ofNat 4 (i + 1))
  have hz : BitVec.ofNat 4 (i + 1) ≠ 0#4 := by
    intro e
    have := congrArg BitVec.toNat e
    simp [Nat.mod_eq_of_lt hi'] at this
  simpa [State.reg, hz, Nat.mod_eq_of_lt hi'] using this

end Sys2Proof.Laws
end

