-- ==== Sys2Proof/Laws/Ops.lean ====
section
/-!
SUPPORT. For each shared operation, one lemma that says once everything it can do; later proofs cite it and
do not unfold the operation.
-/

namespace Sys2Proof.Laws

open Sys2Proof.Machine Sys2Proof.Safety

/-! ## Saturation (`41_compute.md` R100) -/

theorem sat16_spec (k : Int) :
    sat 16 k = if 32767 < k then 0x7FFF#16 else if k < -32768 then 0x8000#16 else BitVec.ofInt 16 k := by
  rfl

theorem sat4_spec (k : Int) :
    sat 4 k = if 7 < k then 0x7#4 else if k < -8 then 0x8#4 else BitVec.ofInt 4 k := by
  rfl

/-- The saturated value is the exact result clamped to the limits. -/
theorem toInt_sat16 (k : Int) :
    (sat 16 k).toInt = if 32767 < k then 32767 else if k < -32768 then -32768 else k := by
  rw [sat16_spec]
  split
  · rfl
  · split
    · rfl
    · rw [BitVec.toInt_ofInt]
      exact Int.bmod_eq_of_le (by omega) (by omega)

/-! ## Addresses (`42_memory_instructions.md` R120, `20_memory.md` R46) -/

theorem and_fffe_toNat (v : Word) : (v &&& 0xFFFE#16).toNat = v.toNat - v.toNat % 2 := by
  have h : v &&& 0xFFFE#16 = (v >>> 1) <<< 1 := by
    apply BitVec.eq_of_getLsbD_eq
    intro i hi
    have h1 : (0xFFFE#16).getLsbD i = decide (1 ≤ i) := by
      revert i; decide
    simp only [BitVec.getLsbD_and, h1, BitVec.getLsbD_shiftLeft, BitVec.getLsbD_ushiftRight]
    by_cases h0 : 1 ≤ i
    · have e : 1 + (i - 1) = i := by omega
      simp [h0, e, hi, Nat.not_lt.mpr h0]
    · have : i < 1 := by omega
      simp [h0, this]
  have := v.isLt
  rw [h, BitVec.toNat_shiftLeft, BitVec.toNat_ushiftRight, Nat.shiftLeft_eq, Nat.shiftRight_eq_div_pow]
  omega

/-- Bit 0 of an effective address is 0 (R46). -/
theorem effectiveAddress_even (base : Word) (off4 : BitVec 4) :
    (effectiveAddress base off4).toNat % 2 = 0 := by
  have hb := and_fffe_toNat base
  have hs : (off4.signExtend 16 <<< 1).toNat % 2 = 0 := by
    rw [BitVec.toNat_shiftLeft, Nat.shiftLeft_eq]
    omega
  unfold effectiveAddress
  rw [BitVec.toNat_add]
  omega

/-! ## Fetch (`20_memory.md` R43, `60_exceptions.md` R153) -/

/-- Bit 0 of `pc` says whether it is odd. -/
theorem getLsbD_zero_iff (v : Word) : v.getLsbD 0 = true ↔ v.toNat % 2 = 1 := by
  simp [BitVec.getLsbD, Nat.testBit_zero]

/-- Everything a fetch can answer. -/
theorem fetch_cases (s : State) :
    (s.pc.toNat % 2 = 1 ∧ s.fetch = .error (.misalignedFetch s.pc)) ∨
    (s.pc.toNat % 2 = 0 ∧ s.imemRead s.pc = none ∧ s.fetch = .error (.fetchOutsideImage s.pc)) ∨
    (s.pc.toNat % 2 = 0 ∧ ∃ w, s.imemRead s.pc = some w ∧ s.fetch = .ok (decodeWord w)) := by
  by_cases h : s.pc.getLsbD 0 = true
  · exact .inl ⟨(getLsbD_zero_iff _).mp h, by simp only [State.fetch, h, if_true]⟩
  · have he : s.pc.toNat % 2 = 0 := by
      have := (getLsbD_zero_iff s.pc).not.mp h
      omega
    refine .inr ?_
    cases hw : s.imemRead s.pc with
    | none => exact .inl ⟨he, rfl, by simp only [State.fetch, h, hw]; rfl⟩
    | some w => exact .inr ⟨he, w, rfl, by simp only [State.fetch, h, hw]; rfl⟩

/-! ## Execution -/

/-- Every instruction completes: no meaning ends in a fault or a refusal. -/
theorem exec_completes (i : Instr) (s : State) : ∃ t, exec i s = .next t := by
  cases i <;> exact ⟨_, rfl⟩

/-- No instruction writes what is not architectural state of the core. -/
theorem exec_keepsRun (i : Instr) {s t : State} (h : exec i s = .next t) : KeepsRun s t := by
  cases i <;> cases h <;> exact ⟨rfl, rfl, rfl, rfl⟩

/-- Data memory after an instruction: unchanged, or one aligned halfword written by SW. -/
theorem exec_dmem (i : Instr) {s t : State} (h : exec i s = .next t) :
    t.dmem = s.dmem ∨ ∃ rt rs off4, i = .sw rt rs off4 ∧
      t.dmem = s.dmem.setHalf s.config.byteOrder (effectiveAddress (s.reg rs) off4) (s.reg rt) := by
  cases i <;> cases h
  case sw rt rs off4 => exact .inr ⟨rt, rs, off4, rfl, rfl⟩
  all_goals exact .inl rfl

/-! ## The step -/

/-- Everything a step can answer. -/
theorem step_cases (s : State) :
    (s.rstN = false ∧ step s = .next (resetEvent s)) ∨
    (s.rstN = true ∧ ∃ f, s.fetch = .error f ∧ step s = .fault f) ∨
    (s.rstN = true ∧ ∃ i, s.fetch = .ok i ∧ step s = exec i s) := by
  cases hr : s.rstN with
  | false => exact .inl ⟨rfl, by simp only [step, hr]; rfl⟩
  | true =>
    refine .inr ?_
    cases hf : s.fetch with
    | error f => exact .inl ⟨rfl, f, rfl, by simp only [step, hr, hf, if_true]⟩
    | ok i => exact .inr ⟨rfl, i, rfl, by simp only [step, hr, hf, if_true]⟩

/-! ## Reset (`70_reset_and_hazards.md` R171) -/

/-- A register after the Reset event: its `RESET_GPR`, or a free value. -/
theorem resetRegs_get (c : Config) (n : Nat) (i : Fin 15) :
    (resetRegs c n)[i] = (c.resetGpr[i]).getD (Config.freeResetGpr n i) := by
  simp [resetRegs]

end Sys2Proof.Laws
end

