-- ==== Sys2Proof/Laws/PerInstr.lean ====
section
/-!
SUPPORT. Facts about each instruction as syntax, one lemma per constructor. Family `UsedBits`: the encoder
writes 0 in every bit the instruction does not use (`30_encoding.md` R76).
-/

namespace Sys2Proof.Laws

/-- A word of four 4-bit groups uses all its bits. -/
theorem and_allOnes (w : Word) : w &&& 0xFFFF#16 = w := by
  have : (0xFFFF#16) = BitVec.allOnes 16 := rfl
  rw [this, BitVec.and_allOnes]

/-- A byte of zeros at the bottom of a word is not in the mask's way. -/
theorem pack8_and (op rd : BitVec 4) : pack8 op rd 0#8 &&& 0xFF00#16 = pack8 op rd 0#8 := by
  revert op rd; decide

/-- The canonical BR word has 0 in bit 8 and bits 3:0. -/
theorem packBr_and (c : Cond) (rs : RegNum) :
    pack9 0xD#4 c (0#1 ++ rs ++ 0#4) &&& 0xFEF0#16 = pack9 0xD#4 c (0#1 ++ rs ++ 0#4) := by
  cases c <;> revert rs <;> decide

/-- The encoder leaves every unused bit 0. -/
def UsedBits.Statement (i : Instr) : Prop := encode i &&& usedBits i = encode i

theorem UsedBits.add (rd rs rt : RegNum) : UsedBits.Statement (.add rd rs rt) := and_allOnes _
theorem UsedBits.sub (rd rs rt : RegNum) : UsedBits.Statement (.sub rd rs rt) := and_allOnes _
theorem UsedBits.red (rd rs rt : RegNum) : UsedBits.Statement (.red rd rs rt) := and_allOnes _
theorem UsedBits.xor (rd rs rt : RegNum) : UsedBits.Statement (.xor rd rs rt) := and_allOnes _
theorem UsedBits.sll (rd rs : RegNum) (imm4 : BitVec 4) : UsedBits.Statement (.sll rd rs imm4) :=
  and_allOnes _
theorem UsedBits.sra (rd rs : RegNum) (imm4 : BitVec 4) : UsedBits.Statement (.sra rd rs imm4) :=
  and_allOnes _
theorem UsedBits.ror (rd rs : RegNum) (imm4 : BitVec 4) : UsedBits.Statement (.ror rd rs imm4) :=
  and_allOnes _
theorem UsedBits.paddsb (rd rs rt : RegNum) : UsedBits.Statement (.paddsb rd rs rt) := and_allOnes _
theorem UsedBits.lw (rt rs : RegNum) (off4 : BitVec 4) : UsedBits.Statement (.lw rt rs off4) :=
  and_allOnes _
theorem UsedBits.sw (rt rs : RegNum) (off4 : BitVec 4) : UsedBits.Statement (.sw rt rs off4) :=
  and_allOnes _
theorem UsedBits.lhb (rd : RegNum) (imm8 : BitVec 8) : UsedBits.Statement (.lhb rd imm8) := and_allOnes _
theorem UsedBits.llb (rd : RegNum) (imm8 : BitVec 8) : UsedBits.Statement (.llb rd imm8) := and_allOnes _
theorem UsedBits.b (cond : Cond) (imm9 : BitVec 9) : UsedBits.Statement (.b cond imm9) := and_allOnes _
theorem UsedBits.br (cond : Cond) (rs : RegNum) : UsedBits.Statement (.br cond rs) := packBr_and cond rs
theorem UsedBits.pcs (rd : RegNum) : UsedBits.Statement (.pcs rd) := pack8_and _ rd
theorem UsedBits.hlt : UsedBits.Statement .hlt := rfl

end Sys2Proof.Laws
end

