-- ==== Sys2Proof/Tests/Slice0.lean ====
section
/-!
SUPPORT. Tests of the model, and witnesses that the hypotheses of the statements can be met. Expected values
are those of `spec/95_test_vectors.md` (section named at each group) unless a comment says otherwise.
-/

namespace Sys2Proof.Tests

open Sys2Proof.Machine Sys2Proof.Safety Sys2Proof.Laws

/-! ## Small states -/

/-- The reset state with `pc`, the word there, `$2`, `$3` and the flags set. -/
def at2 (pc : Word) (w : Nat) (x2 x3 : Word) (f : Flags) : State :=
  (((({ State.reset with pc := pc }).setReg 2#4 x2).setReg 3#4 x3).setFlags f).withFetchWord 16 w

/-- The same at `pc` 0 with `$1` set and one halfword of data memory. -/
def atMem (w : Nat) (x1 x2 a v : Word) (f : Flags) : State :=
  ((at2 0 w x2 0 f).setReg 1#4 x1).memWrite a v

/-- All flags clear. -/
def f000 : Flags := ⟨false, false, false⟩

/-- All flags set. -/
def f111 : Flags := ⟨true, true, true⟩

/-- A register and the flags after one step. -/
def regAfter (s : State) (r : RegNum) : Option (Word × Flags) :=
  match step s with
  | .next t => some (t.reg r, t.flags)
  | _ => none

/-- `pc` after one step. -/
def pcAfter (s : State) : Option Word :=
  match step s with
  | .next t => some t.pc
  | _ => none

/-- A halfword of data memory after one step. -/
def memAfter (s : State) (a : Word) : Option Word :=
  match step s with
  | .next t => t.dmem.half? t.config.byteOrder a
  | _ => none

/-- The fault of the next step, if it faults. -/
def faultOf (s : State) : Option Fault :=
  match step s with
  | .fault f => some f
  | _ => none

/-! ## Well-formedness

Every value of every field of an instruction is legal (`30_encoding.md` R75) and the fields' types are their
widths, so there is no ill-formed instruction to refuse; the checks that can fail are those of an image. -/

theorem test_wf_image_accepted : Image.wellFormed [(0, 0xF000#16), (65534, 0#16)] = true := by decide
theorem test_wf_image_odd_refused : Image.wellFormed [(1, 0#16)] = false := by decide
theorem test_wf_image_too_high_refused : Image.wellFormed [(65536, 0#16)] = false := by decide
theorem test_wf_image_repeat_refused : Image.wellFormed [(2, 0#16), (4, 0#16), (2, 1#16)] = false := by
  decide
theorem test_wf_memory_order_refused : Memory.wf [(4, 0#8), (2, 0#8)] = false := by decide
theorem test_wf_memory_repeat_refused : Memory.wf [(4, 0#8), (4, 1#8)] = false := by decide
theorem test_wf_memory_range_refused : Memory.wf [(65536, 0#8)] = false := by decide

/-! ## Decoding and encoding (95_test_vectors.md 2.1): a word of every constructor -/

theorem test_decode_add : decodeWord 0b0000000100100011#16 = .add 1#4 2#4 3#4 := by decide
theorem test_decode_sub : decodeWord 0b0001111111101101#16 = .sub 15#4 14#4 13#4 := by decide
theorem test_decode_red : decodeWord 0b0010101010111100#16 = .red 10#4 11#4 12#4 := by decide
theorem test_decode_xor : decodeWord 0b0011001000010000#16 = .xor 2#4 1#4 0#4 := by decide
theorem test_decode_sll : decodeWord 0b0100000100100001#16 = .sll 1#4 2#4 1#4 := by decide
theorem test_decode_sra : decodeWord 0b0101000100101111#16 = .sra 1#4 2#4 15#4 := by decide
theorem test_decode_ror : decodeWord 0b0110000100100000#16 = .ror 1#4 2#4 0#4 := by decide
theorem test_decode_paddsb : decodeWord 0b0111111111111111#16 = .paddsb 15#4 15#4 15#4 := by decide
theorem test_decode_lw : decodeWord 0b1000000100101111#16 = .lw 1#4 2#4 0xF#4 := by decide
theorem test_decode_sw : decodeWord 0b1001000100101000#16 = .sw 1#4 2#4 0x8#4 := by decide
theorem test_decode_lhb : decodeWord 0b1010000110101011#16 = .lhb 1#4 0xAB#8 := by decide
theorem test_decode_llb : decodeWord 0b1011111111111111#16 = .llb 15#4 0xFF#8 := by decide
theorem test_decode_b : decodeWord 0b1100110100000000#16 = .b .ovfl 0x100#9 := by decide
theorem test_decode_b_negative : decodeWord 0b1100000111111010#16 = .b .neq 0x1FA#9 := by decide
theorem test_decode_br : decodeWord 0b1101001000110000#16 = .br .eq 3#4 := by decide
theorem test_decode_br_unused : decodeWord 0b1101111100111111#16 = .br .uncond 3#4 := by decide
theorem test_decode_pcs : decodeWord 0b1110111110101011#16 = .pcs 15#4 := by decide
theorem test_decode_hlt : decodeWord 0b1111000100100011#16 = .hlt := by decide

theorem test_encode_lw : encode (.lw 1#4 2#4 2#4) = 0x8122#16 := by decide
theorem test_encode_b : encode (.b .uncond 4#9) = 0xCE04#16 := by decide
theorem test_encode_br : encode (.br .uncond 3#4) = 0xDE30#16 := by decide
theorem test_encode_pcs : encode (.pcs 15#4) = 0xEF00#16 := by decide

/-- One byte holds no instruction (`30_encoding.md` R60). -/
theorem test_decode_truncated : decode .little [0xF0#8] = .error .truncated := by decide

/-- The high byte stands at the odd address in little order (`20_memory.md` R48). -/
theorem test_decode_bytes : decode .little [0x23#8, 0x01#8, 0xFF#8] = .ok (.add 1#4 2#4 3#4, [0xFF#8]) := by
  decide
theorem test_decodeTableWord : decodeTableWord 16 0xDF3F = some (.br .uncond 3#4) := by decide

/-! ## Compute (95_test_vectors.md 2.2 to 2.6) -/

theorem test_add_saturates :
    regAfter (at2 0 0x0123 0x7FFF 0x0001 f111) 1#4 = some (0x7FFF#16, ⟨false, true, false⟩) := by decide
theorem test_add_underflows :
    regAfter (at2 0 0x0123 0x8000 0x8000 f000) 1#4 = some (0x8000#16, ⟨false, true, true⟩) := by decide
theorem test_sub_order :
    regAfter (at2 0 0x1123 0x0005 0x0007 f000) 1#4 = some (0xFFFE#16, ⟨false, false, true⟩) := by decide
theorem test_paddsb :
    regAfter (at2 0 0x7123 0x7F81 0x1188 f111) 1#4 = some (0x7089#16, f111) := by decide
theorem test_paddsb_lanes :
    regAfter (at2 0 0x7123 0x7878 0x1F1F f000) 1#4 = some (0x7878#16, f000) := by decide
theorem test_red_signed :
    regAfter (at2 0 0x2123 0x1234 0x5678 f111) 1#4 = some (0x0014#16, f111) := by decide
theorem test_red_unsigned :
    regAfter { at2 0 0x2123 0xFFFF 0xFFFF f000 with config := { resetConfig with redSigned := false } } 1#4 =
      some (0xFFF8#16, f000) := by decide
theorem test_xor : regAfter (at2 0 0x3123 0x1234 0x1234 ⟨false, true, true⟩) 1#4 = some (0#16, f111) := by decide
theorem test_sll : regAfter (at2 0 0x4121 0x8001 0 ⟨false, true, true⟩) 1#4 =
    some (0x0002#16, ⟨false, true, true⟩) := by decide
theorem test_sra : regAfter (at2 0 0x512F 0x0001 0 ⟨false, true, true⟩) 1#4 = some (0x0000#16, f111) := by decide
theorem test_sra_negative : regAfter (at2 0 0x5122 0x8004 0 f000) 1#4 = some (0xE001#16, f000) := by decide
theorem test_ror : regAfter (at2 0 0x612C 0xF00F 0 ⟨false, true, true⟩) 1#4 =
    some (0x00FF#16, ⟨false, true, true⟩) := by decide
theorem test_ror_zero : regAfter (at2 0 0x6120 0x8001 0 f000) 1#4 = some (0x8001#16, f000) := by decide

/-- `SUB $0, $2, $3` only compares: `$0` stays 0 (2.9). -/
theorem test_sub_to_zero_register :
    regAfter (at2 0 0x1023 0x8000 0x7FFF f000) 0#4 = some (0#16, ⟨false, true, true⟩) := by decide

/-! ## Memory (95_test_vectors.md 2.7, 2.8) -/

theorem test_lw_odd_base :
    regAfter (atMem 0x8122 0 0x0101 0x0104 0xBEEF f111) 1#4 = some (0xBEEF#16, f111) := by decide
theorem test_lw_wraps :
    regAfter (atMem 0x8121 0 0xFFFF 0x0000 0xCAFE f000) 1#4 = some (0xCAFE#16, f000) := by decide
theorem test_sw_negative_offset :
    memAfter (atMem 0x912F 0x1234 0x0200 0x0300 0x7777 f000) 0x01FE#16 = some 0x1234#16 := by decide
theorem test_sw_keeps_other :
    memAfter (atMem 0x9128 0xABCD 0x0008 0x0000 0x7777 f000) 0x0000#16 = some 0x7777#16 := by decide
theorem test_lhb : regAfter (atMem 0xA1AB 0x1234 0 0 0 f111) 1#4 = some (0xAB34#16, f111) := by decide
theorem test_llb : regAfter (atMem 0xB1FF 0x0000 0 0 0 f111) 1#4 = some (0x00FF#16, f111) := by decide

/-! ## Control (95_test_vectors.md 2.10, 2.11) -/

theorem test_b_backward : pcAfter (at2 0x0010 0xCFFA 0 0 f000) = some 0x000C#16 := by decide
theorem test_b_shifted :
    pcAfter { at2 0x0010 0xCE04 0 0 f000 with config := { resetConfig with bshift := 1 } } =
      some 0x001A#16 := by decide
theorem test_br_taken : pcAfter (at2 0x0008 0xDF3F 0 0x0041 f000) = some 0x0041#16 := by decide
theorem test_br_not_taken : pcAfter (at2 0x0008 0xD030 0 0x0041 ⟨true, false, false⟩) = some 0x000A#16 := by
  decide
theorem test_pcs : regAfter (at2 0x0020 0xEF00 0 0 f111) 15#4 = some (0x0022#16, f111) := by decide
theorem test_pcs_wraps : pcAfter (at2 0xFFFE 0xEF00 0 0 f000) = some 0x0000#16 := by decide
theorem test_hlt_stays : pcAfter (at2 0x0030 0xF123 0 0 f000) = some 0x0030#16 := by decide

/-! ## Faults, reset and pins (95_test_vectors.md 3.5, 3.6; 10_state.md R33 to R35) -/

theorem test_fault_misaligned : faultOf { at2 0 0xF000 0 0 f000 with pc := 0x0009#16 } =
    some (.misalignedFetch 0x0009#16) := by decide
theorem test_fault_outside : faultOf { at2 0 0x7000 0 0 f000 with pc := 0x0002#16 } =
    some (.fetchOutsideImage 0x0002#16) := by decide
theorem test_reset_event_beats_fault : pcAfter ({ State.reset with pc := 0x0009#16 }).pulseReset = some 0#16 := by
  decide
theorem test_reset_register_setting :
    regAfter ({ State.reset with
      config := { resetConfig with resetGpr := Vector.replicate 15 (some 0xBEEF#16) } }).pulseReset 15#4 =
      some (0xBEEF#16, f000) := by decide
theorem test_hlt_pin : (at2 0x0030 0xFFFF 0 0 f000).hltPin = true ∧ State.reset.hltPin = false := by decide

/-- A loaded program runs from reset: P6(a), the word 0x7000 at 0, then nothing listed at 2. -/
theorem test_program_runs_from_reset :
    pcAfter ((State.reset.loadImem [(0, 0x7000#16)])) = some 0x0002#16 := by decide
theorem test_prepareRun : pcAfter (State.reset.prepareRun [(0, 0xF000#16)] []) = some 0#16 := by decide

/-! ## Witnesses: the hypotheses of each statement that has some can be met, each clause of it at a boundary -/

/-- StepRunsTheDecodedInstruction, at the top of memory. -/
theorem witness_StepRunsTheDecodedInstruction :
    let s := at2 0xFFFE 0x0123 1 2 f000
    s.rstN = true ∧ s.pc.toNat % 2 = 0 ∧ s.imem.get? s.pc.toNat = some 0x23#8 ∧
      s.imem.get? (s.pc.toNat + 1) = some 0x01#8 ∧
      decode s.config.byteOrder [0x23#8, 0x01#8] = .ok (.add 1#4 2#4 3#4, []) := by decide

/-- PlacedInstructionIsRunNext. -/
theorem witness_PlacedInstructionIsRunNext : State.reset.pc.toNat % 2 = 0 := by decide

/-- OpcodeSelectsTheInstruction and the first clauses of ConditionsFollowTheTable: every opcode occurs. -/
theorem witness_OpcodeSelectsTheInstruction :
    ∀ op : BitVec 4, (op ++ 0#12 : Word).extractLsb' 12 4 = op := by decide

/-- RegistersAreIndependentAndZeroIsHardwired: two registers that differ, none of them `$0`. -/
theorem witness_RegistersAreIndependentAndZeroIsHardwired :
    (15#4 : RegNum) ≠ 0#4 ∧ (14#4 : RegNum) ≠ 15#4 := by decide

/-- SaturatedResultIsTheClampedExactResult: the limits, each side of each. -/
theorem witness_SaturatedResultIsTheClampedExactResult :
    sat 16 32767 = 0x7FFF#16 ∧ sat 16 32768 = 0x7FFF#16 ∧ sat 16 (-32768) = 0x8000#16 ∧
    sat 16 (-32769) = 0x8000#16 ∧ sat 4 7 = 0x7#4 ∧ sat 4 8 = 0x7#4 ∧ sat 4 (-8) = 0x8#4 ∧
    sat 4 (-9) = 0x8#4 := by decide

/-- PaddsbAddsFourLanesSaturatingAndKeepsFlags: the hypotheses on a lane. -/
theorem witness_PaddsbAddsFourLanesSaturatingAndKeepsFlags :
    3 < 4 ∧ (8 : Int) = ((0x7F81#16).extractLsb' (4 * 3) 4).toInt + ((0x1188#16).extractLsb' (4 * 3) 4).toInt := by
  decide

/-- RedSumsEightFieldsUnderEitherSetting: both settings. -/
theorem witness_RedSumsEightFieldsUnderEitherSetting :
    resetConfig.redSigned = true ∧ { resetConfig with redSigned := false }.redSigned = false := by decide

/-- RedSumFitsSevenBits: its bounds are reached. -/
theorem witness_RedSumFitsSevenBits :
    (reduction true 0x8888#16 0x8888#16).toInt = -64 ∧ (reduction true 0x7777#16 0x7777#16).toInt = 56 ∧
    unsignedNibbleSum 0xFFFF#16 + unsignedNibbleSum 0xFFFF#16 = 120 := by decide

/-- MemWriteChangesExactlyOneHalfword, at the last halfword; and another even address. -/
theorem witness_MemWriteChangesExactlyOneHalfword :
    (0xFFFE#16).toNat % 2 = 0 ∧ (0x0000#16).toNat % 2 = 0 ∧ (0x0000#16 : Word) ≠ 0xFFFE#16 := by decide

/-- UnwrittenDataReadsOneStableValue: two states that differ, the last halfword unwritten in both. -/
theorem witness_UnwrittenDataReadsOneStableValue :
    let s := State.reset
    let s' := State.reset.memWrite 0x0000#16 0x1234#16
    (0xFFFE#16).toNat % 2 = 0 ∧ s.dmem.get? (0xFFFE#16).toNat = none ∧
      s.dmem.get? ((0xFFFE#16).toNat + 1) = none ∧ s'.dmem.get? (0xFFFE#16).toNat = none ∧
      s'.dmem.get? ((0xFFFE#16).toNat + 1) = none ∧ s ≠ s' := by decide

/-- LlbAndLhbInEitherOrderLoadAConstant. -/
theorem witness_LlbAndLhbInEitherOrderLoadAConstant : (15#4 : RegNum) ≠ 0#4 := by decide

/-- BranchGoesToPcPlusTwoPlusTheOffset and the statement on BR: a condition that holds, and one that does not. -/
theorem witness_BranchTakenAndNotTaken :
    condHolds .ovfl f111 = true ∧ condHolds .ovfl f000 = false := by decide

/-- HltFreezesTheMachineUntilReset. -/
theorem witness_HltFreezesTheMachineUntilReset :
    (at2 0x0030 0xF123 0 0 f000).fetch = .ok .hlt ∧ (at2 0x0030 0xF123 0 0 f000).rstN = true := by decide

/-- SequentialInstructionsAdvancePcByTwo: an ADD, and a B and a BR that are not taken. -/
theorem witness_SequentialInstructionsAdvancePcByTwo :
    (Instr.add 1#4 2#4 3#4 ≠ .hlt ∧ (∀ c u, Instr.add 1#4 2#4 3#4 = .b c u → condHolds c f000 = false) ∧
      (∀ c r, Instr.add 1#4 2#4 3#4 = .br c r → condHolds c f000 = false)) ∧
    (∀ c u, Instr.b .eq 4#9 = .b c u → condHolds c State.reset.flags = false) ∧
    (∀ c r, Instr.br .eq 3#4 = .br c r → condHolds c State.reset.flags = false) := by
  refine ⟨⟨by decide, fun _ _ h => (nomatch h), fun _ _ h => (nomatch h)⟩, ?_, ?_⟩
  · intro c u h; cases h; decide
  · intro c r h; cases h; decide

/-- TakenBranchToAnOddAddressFaultsNext: the BR, and the B (2.10: 0xCFFF at 0x0010). -/
theorem witness_TakenBranchToAnOddAddressFaultsNext :
    (let s := at2 0x0008 0xDE30 0 0x0041 f000
     s.rstN = true ∧ condHolds .uncond s.flags = true ∧ (s.reg 3#4).toNat % 2 = 1) ∧
    (let s := at2 0x0010 0xCFFF 0 0 f000
     s.rstN = true ∧ condHolds .uncond s.flags = true ∧
       ((s.pc.toNat : Int) + 2 + (0x1FF#9).toInt * 2 ^ (s.config.bshift : Nat)) % 2 = 1) := by decide

/-- InstructionsReadAndWriteOnlyListedRegisters: a register not listed as read, written and not written. -/
theorem witness_InstructionsReadAndWriteOnlyListedRegisters :
    1#4 ∉ readsRegs (.add 1#4 2#4 3#4) ∧ writesReg (.add 1#4 2#4 3#4) = some 1#4 ∧
    4#4 ∉ readsRegs (.add 1#4 2#4 3#4) ∧ writesReg (.add 1#4 2#4 3#4) ≠ some 4#4 := by decide

/-- FlagsAreWrittenAndReadAsTheTableSays: an instruction that keeps all flags and reads none. -/
theorem witness_FlagsAreWrittenAndReadAsTheTableSays :
    writesZ (.pcs 1#4) = false ∧ writesVN (.xor 1#4 2#4 3#4) = false ∧ readsFlags (.pcs 1#4) = false := by decide

/-- PcIsVisibleAndReadOnlyByPcsAndB: an instruction that is neither PCS nor B, and one that is not BR; a BR is
taken in one state and not in another. -/
theorem witness_PcIsVisibleAndReadOnlyByPcsAndB :
    (∀ rd, Instr.br .ovfl 3#4 ≠ .pcs rd) ∧ (∀ c imm9, Instr.br .ovfl 3#4 ≠ .b c imm9) ∧
    (∀ c rs, Instr.pcs 1#4 ≠ .br c rs) ∧
    condHolds .ovfl (at2 0 0xDC30 0 0 f111).flags = true ∧
    condHolds .ovfl (at2 0 0xDC30 0 0 f000).flags = false :=
  ⟨fun _ h => (nomatch h), fun _ _ h => (nomatch h), fun _ _ h => (nomatch h), by decide, by decide⟩

/-- OnlySwChangesAndOnlyLwReadsDataMemory: an instruction that is not SW, and one (an SW) that
is not LW. -/
theorem witness_OnlySwChangesAndOnlyLwReadsDataMemory :
    (∀ rt rs off4, Instr.lw 1#4 2#4 3#4 ≠ .sw rt rs off4) ∧
    (∀ rt rs off4, Instr.sw 1#4 2#4 3#4 ≠ .lw rt rs off4) :=
  ⟨fun _ _ _ h => (nomatch h), fun _ _ _ h => (nomatch h)⟩

/-- NothingWritesInstructionMemoryAndNoInstructionReadsIt and EveryStepKeepsTheMemoriesCanonical: a canonical
state whose next step is a store. -/
theorem witness_EveryStepKeepsTheMemoriesCanonical :
    Canonical (at2 0 0x9128 0x0008 0 f000) ∧ ∃ t, step (at2 0 0x9128 0x0008 0 f000) = .next t :=
  ⟨⟨by decide, by decide⟩, _, rfl⟩

/-- PcBecomesOddOnlyThroughATakenBranch: each of its two ways. -/
theorem witness_PcBecomesOddOnlyThroughATakenBranch :
    pcAfter (at2 0x0008 0xDE30 0 0x0041 f000) = some 0x0041#16 ∧
    pcAfter (at2 0x0010 0xCFFF 0 0 f000) = some 0x0011#16 := by decide

/-- ByteOrderIsUnobservable: two states of different byte order, with a program and a datum in each. -/
theorem witness_ByteOrderIsUnobservable :
    let s := (State.reset.loadImem [(0, 0x8100#16)]).loadDmem [(0, 0x1234#16)]
    let r : State := { State.reset with config := { resetConfig with byteOrder := .big } }
    let s' := (r.loadImem [(0, 0x8100#16)]).loadDmem [(0, 0x1234#16)]
    SameButByteOrder s s' ∧ s.dmem ≠ s'.dmem := by
  refine ⟨⟨rfl, rfl, rfl, rfl, rfl, rfl, fun a ha => ?_⟩, by decide⟩
  by_cases h : a = 0#16
  · subst h; exact ⟨by decide, by decide⟩
  · have hz : (0#16 : Word).toNat % 2 = 0 := rfl
    constructor
    · exact (half?_setHalf_ne .big [] _ hz ha h).trans (half?_setHalf_ne .little [] 0x8100#16 hz ha h).symm
    · refine (readHalf_setHalf_ne _ [] _ hz ha h).trans (Eq.symm ?_)
      refine (readHalf_setHalf_ne _ [] _ hz ha h).trans ?_
      rw [readHalf_unlisted _ ha rfl rfl, readHalf_unlisted _ ha rfl rfl]

/-- ResetEventTakesTheSettingsAndKeepsTheMemories: `rst_n` low, with a register and each flag set. -/
theorem witness_ResetEventTakesTheSettingsAndKeepsTheMemories :
    State.reset.pulseReset.rstN = false ∧ State.reset.pulseReset.config.resetGpr[(14 : Fin 15)] = some 0#16 ∧
    State.reset.pulseReset.config.resetZ = some false ∧ State.reset.pulseReset.config.resetV = some false ∧
    State.reset.pulseReset.config.resetN = some false := by decide

/-- TheOnlyFaultsAreTheTwoFetchFaults: both faults occur. -/
theorem witness_TheOnlyFaultsAreTheTwoFetchFaults :
    faultOf { State.reset with pc := 0xFFFF#16 } = some (.misalignedFetch 0xFFFF#16) ∧
    faultOf { State.reset with pc := 0xFFFE#16 } = some (.fetchOutsideImage 0xFFFE#16) := by decide

/-- ARunHasAtMostOneFinalState: a run that ends, after one step. -/
theorem witness_ARunHasAtMostOneFinalState :
    let s := State.reset.loadImem [(0, 0x7000#16), (2, 0xF000#16)]
    ∃ t, EndsIn s t ∧ t.pc = 0x0002#16 :=
  ⟨_, ⟨1, rfl, by unfold Final; decide⟩, rfl⟩

/-- LoadedImagesAreWhatTheMachineReads: a well-formed image with a word at each end, an address inside it and
an even one outside. -/
theorem witness_LoadedImagesAreWhatTheMachineReads :
    let img : Image := [(0, 0x7000#16), (65534, 0xF000#16)]
    img.wellFormed = true ∧ (65534, 0xF000#16) ∈ img ∧ (0x0002#16).toNat % 2 = 0 ∧
      ∀ p ∈ img, p.1 ≠ (0x0002#16).toNat := by decide

end Sys2Proof.Tests
end

section
/-!
PROOFS. The equation of each instruction: `exec` in terms of the shared operations of `Machine/Ops.lean`, so that
no later proof unfolds an instruction's own definition.
-/

namespace Sys2Proof.Proofs

open Sys2Proof.Machine

section Compute
variable (rd rs rt : RegNum) (imm4 : BitVec 4) (s : State)

@[simp] theorem exec_add : exec (.add rd rs rt) s =
    .next (s.finishArith rd ((s.reg rs).toInt + (s.reg rt).toInt)) := rfl
@[simp] theorem exec_sub : exec (.sub rd rs rt) s =
    .next (s.finishArith rd ((s.reg rs).toInt - (s.reg rt).toInt)) := rfl
@[simp] theorem exec_red : exec (.red rd rs rt) s =
    .next (s.finishPlain rd (reduction s.config.redSigned (s.reg rs) (s.reg rt))) := rfl
@[simp] theorem exec_xor : exec (.xor rd rs rt) s =
    .next (s.finishLogic rd (s.reg rs ^^^ s.reg rt)) := rfl
@[simp] theorem exec_sll : exec (.sll rd rs imm4) s =
    .next (s.finishLogic rd (shiftLeft (s.reg rs) imm4)) := rfl
@[simp] theorem exec_sra : exec (.sra rd rs imm4) s =
    .next (s.finishLogic rd (shiftRightArith (s.reg rs) imm4)) := rfl
@[simp] theorem exec_ror : exec (.ror rd rs imm4) s =
    .next (s.finishLogic rd (rotateRight (s.reg rs) imm4)) := rfl
@[simp] theorem exec_paddsb : exec (.paddsb rd rs rt) s =
    .next (s.finishPlain rd (packedAdd (s.reg rs) (s.reg rt))) := rfl

end Compute

section LoadStore
variable (rd rt rs : RegNum) (off4 : BitVec 4) (imm8 : BitVec 8) (s : State)

@[simp] theorem exec_lw : exec (.lw rt rs off4) s =
    .next (s.finishPlain rt (s.memRead (effectiveAddress (s.reg rs) off4))) := rfl
@[simp] theorem exec_sw : exec (.sw rt rs off4) s =
    .next (s.memWrite (effectiveAddress (s.reg rs) off4) (s.reg rt)).advance := rfl
@[simp] theorem exec_lhb : exec (.lhb rd imm8) s =
    .next (s.finishPlain rd (withHighByte (s.reg rd) imm8)) := rfl
@[simp] theorem exec_llb : exec (.llb rd imm8) s =
    .next (s.finishPlain rd (withLowByte (s.reg rd) imm8)) := rfl

end LoadStore

section Control
variable (cond : Cond) (imm9 : BitVec 9) (rd rs : RegNum) (s : State)

@[simp] theorem exec_b : exec (.b cond imm9) s = .next (s.setPc
    (if condHolds cond s.flags then branchTarget s.config.bshift s.pc imm9 else nextPc s.pc)) := rfl
@[simp] theorem exec_br : exec (.br cond rs) s =
    .next (s.setPc (if condHolds cond s.flags then s.reg rs else nextPc s.pc)) := rfl
@[simp] theorem exec_pcs : exec (.pcs rd) s = .next (s.finishPlain rd (nextPc s.pc)) := rfl
@[simp] theorem exec_hlt : exec .hlt s = .next s := rfl

end Control

end Sys2Proof.Proofs
end

section
/-!
PROOFS. A register changed before a shared operation: the operation carries the change through, unless it writes
that register itself, and then the change is lost.
-/

namespace Sys2Proof.Proofs

open Sys2Proof.Machine Sys2Proof.Laws

variable (s : State) (q : RegNum) (v : Word)

@[simp] theorem memRead_setReg (a : Word) : (s.setReg q v).memRead a = s.memRead a := rfl

theorem memWrite_setReg (a w : Word) : (s.setReg q v).memWrite a w = (s.memWrite a w).setReg q v := rfl

theorem setPc_setReg (p : Word) : (s.setReg q v).setPc p = (s.setPc p).setReg q v := rfl

theorem advance_setReg : (s.setReg q v).advance = s.advance.setReg q v := rfl

/-- A register write after another one: it hides the first, or the two commute. -/
theorem setReg_setReg (rd : RegNum) (w : Word) :
    (s.setReg q v).setReg rd w = if rd = q then s.setReg rd w else (s.setReg rd w).setReg q v := by
  split
  next h => rw [h, setReg_setReg_same]
  next h => exact setReg_comm s v w (Ne.symm h)

theorem finishPlain_setReg (rd : RegNum) (r : Word) :
    (s.setReg q v).finishPlain rd r =
      if rd = q then s.finishPlain rd r else (s.finishPlain rd r).setReg q v := by
  unfold State.finishPlain
  rw [setReg_setReg]
  split <;> rfl

theorem finishLogic_setReg (rd : RegNum) (r : Word) :
    (s.setReg q v).finishLogic rd r =
      if rd = q then s.finishLogic rd r else (s.finishLogic rd r).setReg q v := by
  unfold State.finishLogic
  rw [setReg_setReg]
  split <;> rfl

theorem finishArith_setReg (rd : RegNum) (k : Int) :
    (s.setReg q v).finishArith rd k =
      if rd = q then s.finishArith rd k else (s.finishArith rd k).setReg q v := by
  unfold State.finishArith
  rw [setReg_setReg]
  split <;> rfl

end Sys2Proof.Proofs
end

section
/-! PROOFS. Registers are written and read as the table of `10_state.md` R22 lists them. -/

namespace Sys2Proof.Proofs

open Sys2Proof.Machine Sys2Proof.Safety Sys2Proof.Laws

/-- An instruction keeps every register its row does not list as written. -/
theorem exec_reg_unwritten {i : Instr} {s t : State} {q : RegNum} (ht : exec i s = .next t)
    (hq : writesReg i ≠ some q) : t.reg q = s.reg q := by
  cases i with
  | add rd | sub rd | red rd | xor rd | sll rd | sra rd | ror rd | paddsb rd | lw rd | lhb rd | llb rd
  | pcs rd =>
    have hne : q ≠ rd := fun e => hq (congrArg some e.symm)
    cases ht
    exact reg_setReg_ne s _ hne
  | sw | b | br | hlt => cases ht; rfl

/-- Every operand reads as before when the register changed is none of them. -/
theorem reg_setReg_unread {i : Instr} {q : RegNum} (s : State) (v : Word) (hq : q ∉ readsRegs i) :
    ∀ r ∈ readsRegs i, (s.setReg q v).reg r = s.reg r :=
  fun _ hr => reg_setReg_ne s v fun e => hq (e ▸ hr)

/-- An instruction run with another value in a register its row does not list as read: the operands are the
same, so the result differs at most in that register, and not even there if the instruction writes it. -/
theorem exec_setReg_unread {i : Instr} {s t : State} {q : RegNum} (v : Word) (ht : exec i s = .next t)
    (hq : q ∉ readsRegs i) :
    exec i (s.setReg q v) = .next (if writesReg i = some q then t else t.setReg q v) := by
  have hread := reg_setReg_unread s v hq
  cases i with
  | add | sub =>
    cases ht; simp only [readsRegs, List.forall_mem_cons] at hread
    simp [writesReg, hread, finishArith_setReg]
  | xor | sll | sra | ror =>
    cases ht; simp only [readsRegs, List.forall_mem_cons] at hread
    simp [writesReg, hread, finishLogic_setReg]
  | red | paddsb | lw | lhb | llb =>
    cases ht; simp only [readsRegs, List.forall_mem_cons] at hread
    simp [writesReg, hread, finishPlain_setReg]
  | pcs => cases ht; simp [writesReg, finishPlain_setReg]
  | sw =>
    cases ht; simp only [readsRegs, List.forall_mem_cons] at hread
    simp [writesReg, hread, memWrite_setReg, advance_setReg]
  | br =>
    cases ht; simp only [readsRegs, List.forall_mem_cons] at hread
    simp [writesReg, hread, setPc_setReg]
  | b | hlt => cases ht; rfl

/-- Settles O37, from the frame of the registers and the independence of the unread ones. -/
theorem instructionsReadAndWriteOnlyListedRegisters :
    Obligations.InstructionsReadAndWriteOnlyListedRegisters := by
  intro i s
  obtain ⟨t, ht⟩ := exec_completes i s
  refine ⟨t, ht, fun q => exec_reg_unwritten ht, fun q v hq => ⟨fun hw => ?_, fun hw => ?_⟩⟩
  · rw [exec_setReg_unread v ht hq, if_pos hw]
  · rw [exec_setReg_unread v ht hq, if_neg hw]

end Sys2Proof.Proofs
end

section
/-!
PROOFS. Flags changed before a shared operation: ADD and SUB overwrite all three, the logic instructions Z, and
an instruction that writes no flag carries the change through.
-/

namespace Sys2Proof.Proofs

open Sys2Proof.Machine Sys2Proof.Laws

variable (s : State) (f : Flags)

theorem finishPlain_setFlags (rd : RegNum) (r : Word) :
    (s.setFlags f).finishPlain rd r = (s.finishPlain rd r).setFlags f := rfl

theorem finishLogic_setFlags (rd : RegNum) (r : Word) :
    (s.setFlags f).finishLogic rd r = (s.finishLogic rd r).setFlags (logicFlags f r) := rfl

theorem finishArith_setFlags (rd : RegNum) (k : Int) :
    (s.setFlags f).finishArith rd k = (s.finishArith rd k).setFlags (arithFlags k (sat 16 k)) := rfl

end Sys2Proof.Proofs
end

section
/-! PROOFS. Flags are written and read as the table of `10_state.md` R30 lists them. -/

namespace Sys2Proof.Proofs

open Sys2Proof.Machine Sys2Proof.Safety Sys2Proof.Laws

/-- An instruction that R30 does not list as writing Z keeps it. -/
theorem exec_keeps_z {i : Instr} {s t : State} (ht : exec i s = .next t) (hz : writesZ i = false) :
    t.flags.z = s.flags.z := by
  cases i with
  | add | sub | xor | sll | sra | ror => cases hz
  | red | paddsb | lw | sw | lhb | llb | b | br | pcs | hlt => cases ht; rfl

/-- Only ADD and SUB change V and N: the logic instructions write Z alone. -/
theorem exec_keeps_vn {i : Instr} {s t : State} (ht : exec i s = .next t) (hvn : writesVN i = false) :
    t.flags.v = s.flags.v ∧ t.flags.n = s.flags.n := by
  cases i with
  | add | sub => cases hvn
  | xor | sll | sra | ror | red | paddsb | lw | sw | lhb | llb | b | br | pcs | hlt =>
    cases ht; exact ⟨rfl, rfl⟩

/-- The flags that R30 gives an instruction: those its rows list from `new`, the others from `old`. -/
def tableFlags (i : Instr) (old new : Flags) : Flags :=
  { z := if writesZ i then new.z else old.z
    v := if writesVN i then new.v else old.v
    n := if writesVN i then new.n else old.n }

/-- An instruction that reads no flag, run with other flags: the same state, but the flags it does not write are
those it was given. -/
theorem exec_setFlags {i : Instr} {s t : State} (f : Flags) (ht : exec i s = .next t)
    (hr : readsFlags i = false) :
    exec i (s.setFlags f) = .next (t.setFlags (tableFlags i f t.flags)) := by
  cases i with
  | add | sub => cases ht; exact congrArg Host.Outcome.next (finishArith_setFlags s f _ _)
  | xor | sll | sra | ror => cases ht; exact congrArg Host.Outcome.next (finishLogic_setFlags s f _ _)
  | red | paddsb | lw | lhb | llb | pcs =>
    cases ht; exact congrArg Host.Outcome.next (finishPlain_setFlags s f _ _)
  | b | br => cases hr
  | sw | hlt => cases ht; rfl

/-- Settles O38, from the frame of each flag and the independence of the flags before. -/
theorem flagsAreWrittenAndReadAsTheTableSays : Obligations.FlagsAreWrittenAndReadAsTheTableSays := by
  intro i s
  obtain ⟨t, ht⟩ := exec_completes i s
  exact ⟨t, ht, exec_keeps_z ht, exec_keeps_vn ht, fun hr f => exec_setFlags f ht hr⟩

end Sys2Proof.Proofs
end

section
/-! PROOFS. The effective address of LW and SW: bit 0 of the base is cleared before the offset is added. -/

namespace Sys2Proof.Proofs

open Sys2Proof.Machine Sys2Proof.Laws

/-- The mask of R46 clears bit 0, so setting that bit first makes no difference. -/
theorem or_one_and_fffe (base : Word) : (base ||| 1#16) &&& 0xFFFE#16 = base &&& 0xFFFE#16 := by
  have hbit : (1#16 : Word) &&& 0xFFFE#16 = 0#16 := by decide
  rw [BitVec.and_or_distrib_right, hbit, BitVec.or_zero]

/-- Bit 0 of the base does not reach the address (`20_memory.md` R46). -/
theorem effectiveAddress_or_one (base : Word) (off4 : BitVec 4) :
    effectiveAddress (base ||| 1#16) off4 = effectiveAddress base off4 := by
  simp only [effectiveAddress, or_one_and_fffe]

/-- Settles O20: the even part of the base and the doubled offset have an even sum, and the formula of R46 is
the definition. -/
theorem dataAddressesAreAlwaysEven : Obligations.DataAddressesAreAlwaysEven := fun base off4 =>
  ⟨effectiveAddress_even base off4, rfl, effectiveAddress_or_one base off4⟩

end Sys2Proof.Proofs
end

section
/-! PROOFS. A write to data memory is read back and leaves everything else alone (`20_memory.md` R45). -/

namespace Sys2Proof.Proofs

open Sys2Proof.Machine Sys2Proof.Safety Sys2Proof.Laws

section Write
variable (s : State) {a b : Word} (v : Word)

theorem memRead_memWrite_same (ha : a.toNat % 2 = 0) : (s.memWrite a v).memRead a = v :=
  readHalf_setHalf_same s.config.byteOrder s.dmem v ha

theorem memRead_memWrite_ne (ha : a.toNat % 2 = 0) (hb : b.toNat % 2 = 0) (h : b ≠ a) :
    (s.memWrite a v).memRead b = s.memRead b :=
  readHalf_setHalf_ne s.config.byteOrder s.dmem v ha hb h

/-- A byte that data memory lists as before, under the same byte order, reads as before: when neither state
lists it, both give the free value of its address (log 7). -/
theorem dataByte_congr {s t : State} {n : Nat} (hconfig : t.config = s.config)
    (hlisted : t.dmem.get? n = s.dmem.get? n) : t.dataByte n = s.dataByte n := by
  simp only [State.dataByte, Memory.readByte, hconfig, hlisted]

/-- Only the two bytes of the halfword written change. -/
theorem keepsDataOutside_memWrite (ha : a.toNat % 2 = 0) : KeepsDataOutside s (s.memWrite a v) a := by
  intro n hlow hhigh
  have hlisted : (s.memWrite a v).dmem.get? n = s.dmem.get? n := by
    rw [memWrite_dmem, get?_setHalf _ _ v ha, if_neg hhigh, if_neg hlow]
  exact ⟨hlisted, dataByte_congr (memWrite_config s a v) hlisted⟩

theorem keepsRegs_memWrite (a : Word) : KeepsRegs s (s.memWrite a v) := memWrite_reg s a v

theorem keepsRun_memWrite (a : Word) : KeepsRun s (s.memWrite a v) :=
  ⟨memWrite_imem s a v, memWrite_config s a v, memWrite_rstN s a v, memWrite_draws s a v⟩

end Write

/-- Settles O21, from the read-after-write laws and the frame of a data memory write. -/
theorem memWriteChangesExactlyOneHalfword : Obligations.MemWriteChangesExactlyOneHalfword :=
  fun s a v ha =>
    ⟨memRead_memWrite_same s v ha, fun _ hb hne => memRead_memWrite_ne s v ha hb hne,
      keepsDataOutside_memWrite s v ha, keepsRegs_memWrite s v a, memWrite_pc s a v, memWrite_flags s a v,
      keepsRun_memWrite s v a⟩

end Sys2Proof.Proofs
end

section
/-!
PROOFS. The equation of each opcode: `decodeWord` in terms of the fields of the word, one equation per row of
`30_encoding.md` R69, so that no later proof walks through the decoder's table again.
-/

namespace Sys2Proof.Proofs

variable {w : Word}

theorem decodeWord_add (hop : field w 12 4 = 0x0#4) :
    decodeWord w = .add (field w 8 4) (field w 4 4) (field w 0 4) := by rw [decodeWord, hop]; rfl
theorem decodeWord_sub (hop : field w 12 4 = 0x1#4) :
    decodeWord w = .sub (field w 8 4) (field w 4 4) (field w 0 4) := by rw [decodeWord, hop]; rfl
theorem decodeWord_red (hop : field w 12 4 = 0x2#4) :
    decodeWord w = .red (field w 8 4) (field w 4 4) (field w 0 4) := by rw [decodeWord, hop]; rfl
theorem decodeWord_xor (hop : field w 12 4 = 0x3#4) :
    decodeWord w = .xor (field w 8 4) (field w 4 4) (field w 0 4) := by rw [decodeWord, hop]; rfl
theorem decodeWord_sll (hop : field w 12 4 = 0x4#4) :
    decodeWord w = .sll (field w 8 4) (field w 4 4) (field w 0 4) := by rw [decodeWord, hop]; rfl
theorem decodeWord_sra (hop : field w 12 4 = 0x5#4) :
    decodeWord w = .sra (field w 8 4) (field w 4 4) (field w 0 4) := by rw [decodeWord, hop]; rfl
theorem decodeWord_ror (hop : field w 12 4 = 0x6#4) :
    decodeWord w = .ror (field w 8 4) (field w 4 4) (field w 0 4) := by rw [decodeWord, hop]; rfl
theorem decodeWord_paddsb (hop : field w 12 4 = 0x7#4) :
    decodeWord w = .paddsb (field w 8 4) (field w 4 4) (field w 0 4) := by rw [decodeWord, hop]; rfl
theorem decodeWord_lw (hop : field w 12 4 = 0x8#4) :
    decodeWord w = .lw (field w 8 4) (field w 4 4) (field w 0 4) := by rw [decodeWord, hop]; rfl
theorem decodeWord_sw (hop : field w 12 4 = 0x9#4) :
    decodeWord w = .sw (field w 8 4) (field w 4 4) (field w 0 4) := by rw [decodeWord, hop]; rfl

theorem decodeWord_lhb (hop : field w 12 4 = 0xA#4) :
    decodeWord w = .lhb (field w 8 4) (field w 0 8) := by rw [decodeWord, hop]; rfl
theorem decodeWord_llb (hop : field w 12 4 = 0xB#4) :
    decodeWord w = .llb (field w 8 4) (field w 0 8) := by rw [decodeWord, hop]; rfl

theorem decodeWord_b (hop : field w 12 4 = 0xC#4) :
    decodeWord w = .b (decodeCond (field w 9 3)) (field w 0 9) := by rw [decodeWord, hop]; rfl
theorem decodeWord_br (hop : field w 12 4 = 0xD#4) :
    decodeWord w = .br (decodeCond (field w 9 3)) (field w 4 4) := by rw [decodeWord, hop]; rfl
theorem decodeWord_pcs (hop : field w 12 4 = 0xE#4) :
    decodeWord w = .pcs (field w 8 4) := by rw [decodeWord, hop]; rfl
theorem decodeWord_hlt (hop : field w 12 4 = 0xF#4) :
    decodeWord w = .hlt := by rw [decodeWord, hop]; rfl

end Sys2Proof.Proofs
end

section
/-! PROOFS. Bits 15:12 select the row of the opcode table (`30_encoding.md` R69). -/

namespace Sys2Proof.Proofs

/-- Settles O3: the equation of each opcode names the fields that are the operands. -/
theorem opcodeSelectsTheInstruction : Obligations.OpcodeSelectsTheInstruction := fun _ =>
  ⟨fun hop => ⟨_, _, _, decodeWord_add hop⟩,
   fun hop => ⟨_, _, _, decodeWord_sub hop⟩,
   fun hop => ⟨_, _, _, decodeWord_red hop⟩,
   fun hop => ⟨_, _, _, decodeWord_xor hop⟩,
   fun hop => ⟨_, _, _, decodeWord_sll hop⟩,
   fun hop => ⟨_, _, _, decodeWord_sra hop⟩,
   fun hop => ⟨_, _, _, decodeWord_ror hop⟩,
   fun hop => ⟨_, _, _, decodeWord_paddsb hop⟩,
   fun hop => ⟨_, _, _, decodeWord_lw hop⟩,
   fun hop => ⟨_, _, _, decodeWord_sw hop⟩,
   fun hop => ⟨_, _, decodeWord_lhb hop⟩,
   fun hop => ⟨_, _, decodeWord_llb hop⟩,
   fun hop => ⟨_, _, decodeWord_b hop⟩,
   fun hop => ⟨_, _, decodeWord_br hop⟩,
   fun hop => ⟨_, decodeWord_pcs hop⟩,
   decodeWord_hlt⟩

end Sys2Proof.Proofs
end

section
/-!
PROOFS. The frame of the shared ends of the compute instructions: the destination, the flags, and what stays
(`00_scope.md` R12, `10_state.md` R21, R30).
-/

namespace Sys2Proof.Proofs

open Sys2Proof.Machine Sys2Proof.Safety Sys2Proof.Laws

/-- The same listed bytes under the same byte order are the same data memory, unlisted bytes included. -/
theorem keepsData_of_dmem_eq {s t : State} (hdmem : t.dmem = s.dmem) (hconfig : t.config = s.config) :
    KeepsData s t :=
  ⟨hdmem, fun _ => dataByte_congr hconfig (by rw [hdmem])⟩

variable (s : State) (rd : RegNum) (r : Word)

/-- What an instruction that ends in `finishPlain` answers: the value in `rd`, and everything else but `pc`
kept. -/
theorem finishPlain_effect :
    (s.finishPlain rd r).reg rd = (if rd = 0#4 then 0x0000#16 else r) ∧
    (s.finishPlain rd r).flags = s.flags ∧
    KeepsRegsExcept s (s.finishPlain rd r) rd ∧ KeepsData s (s.finishPlain rd r) ∧
    KeepsRun s (s.finishPlain rd r) :=
  ⟨reg_setReg_same s rd r, finishPlain_flags s rd r, fun _ hq => reg_setReg_ne s r hq,
    keepsData_of_dmem_eq (finishPlain_dmem s rd r) (finishPlain_config s rd r),
    finishPlain_imem s rd r, finishPlain_config s rd r, finishPlain_rstN s rd r, finishPlain_draws s rd r⟩

/-- Z says whether the value is zero; V and N are kept (`41_compute.md` R111). -/
theorem logicFlags_effect (f : Flags) :
    ((logicFlags f r).z = true ↔ r = 0x0000#16) ∧ (logicFlags f r).v = f.v ∧ (logicFlags f r).n = f.n :=
  ⟨beq_iff_eq, rfl, rfl⟩

/-- What an instruction that ends in `finishLogic` answers: the value in `rd`, Z, and everything else but `pc`
kept. -/
theorem finishLogic_effect :
    (s.finishLogic rd r).reg rd = (if rd = 0#4 then 0x0000#16 else r) ∧
    ((s.finishLogic rd r).flags.z = true ↔ r = 0x0000#16) ∧
    (s.finishLogic rd r).flags.v = s.flags.v ∧ (s.finishLogic rd r).flags.n = s.flags.n ∧
    KeepsRegsExcept s (s.finishLogic rd r) rd ∧ KeepsData s (s.finishLogic rd r) ∧
    KeepsRun s (s.finishLogic rd r) := by
  obtain ⟨hz, hv, hn⟩ := logicFlags_effect r s.flags
  exact ⟨reg_setReg_same s rd r, hz, hv, hn, fun _ hq => reg_setReg_ne s r hq,
    keepsData_of_dmem_eq (finishLogic_dmem s rd r) (finishLogic_config s rd r),
    finishLogic_imem s rd r, finishLogic_config s rd r, finishLogic_rstN s rd r, finishLogic_draws s rd r⟩

end Sys2Proof.Proofs
end

section
/-!
PROOFS. Words of four 4-bit groups: their groups read back, and what a word written as an opcode and three
shifted operands decodes to (`30_encoding.md` R61 to R63).
-/

namespace Sys2Proof.Proofs

section Groups
variable (op f2 f1 f0 : BitVec 4)

@[simp] theorem field_pack4_12 : field (pack4 op f2 f1 f0) 12 4 = op :=
  BitVec.extractLsb'_append_eq_of_le (by decide) |>.trans <|
    BitVec.extractLsb'_append_eq_of_le (by decide) |>.trans BitVec.extractLsb'_append_eq_left

@[simp] theorem field_pack4_8 : field (pack4 op f2 f1 f0) 8 4 = f2 :=
  BitVec.extractLsb'_append_eq_of_le (by decide) |>.trans <|
    BitVec.extractLsb'_append_eq_of_le (by decide) |>.trans BitVec.extractLsb'_append_eq_right

@[simp] theorem field_pack4_4 : field (pack4 op f2 f1 f0) 4 4 = f1 :=
  BitVec.extractLsb'_append_eq_of_le (by decide) |>.trans BitVec.extractLsb'_append_eq_right

@[simp] theorem field_pack4_0 : field (pack4 op f2 f1 f0) 0 4 = f0 := BitVec.extractLsb'_append_eq_right

/-- The groups side by side are the groups shifted to their places. -/
theorem pack4_eq_or : pack4 op f2 f1 f0 =
    op.setWidth 16 <<< 12 ||| f2.setWidth 16 <<< 8 ||| f1.setWidth 16 <<< 4 ||| f0.setWidth 16 :=
  (BitVec.setWidth_eq _).symm.trans BitVec.setWidth_append_append_append_eq_shiftLeft_setWidth_or

end Groups

/-- A word made of an opcode and three operands decodes to the instruction `mk` of that opcode's row, with
those operands. -/
theorem decodeWord_groups {mk : RegNum → RegNum → BitVec 4 → Instr} (op : BitVec 4)
    (hrow : ∀ {w : Word}, field w 12 4 = op →
      decodeWord w = mk (field w 8 4) (field w 4 4) (field w 0 4)) (f2 f1 f0 : BitVec 4) :
    decodeWord (op.setWidth 16 <<< 12 ||| f2.setWidth 16 <<< 8 ||| f1.setWidth 16 <<< 4 |||
      f0.setWidth 16) = mk f2 f1 f0 := by
  rw [← pack4_eq_or, hrow (field_pack4_12 op f2 f1 f0), field_pack4_8, field_pack4_4, field_pack4_0]

end Sys2Proof.Proofs
end

section
/-!
PROOFS. XOR, SLL, SRA and ROR: what the value is; the destination, Z and the frame are those of `finishLogic`
(`41_compute.md` R107 to R110).
-/

namespace Sys2Proof.Proofs

open Sys2Proof.Machine

section Shift
variable (v : Word) (imm4 : BitVec 4)

theorem toNat_shiftLeft : (shiftLeft v imm4).toNat = v.toNat * 2 ^ imm4.toNat % 65536 := by
  rw [shiftLeft, BitVec.toNat_shiftLeft, Nat.shiftLeft_eq]

/-- Moving bits toward bit 0 under copies of bit 15 divides the signed value and rounds down (R109). -/
theorem toInt_shiftRightArith : (shiftRightArith v imm4).toInt = Int.fdiv v.toInt (2 ^ imm4.toNat) := by
  have hpos : (0 : Int) ≤ 2 ^ imm4.toNat := by positivity
  rw [shiftRightArith, BitVec.toInt_sshiftRight, Int.shiftRight_eq_div_pow,
    Int.fdiv_eq_ediv_of_nonneg _ hpos]
  norm_cast

/-- A 4-bit amount is below the width, so ROR is the library's rotation. -/
theorem rotateRight_eq : rotateRight v imm4 = v.rotateRight imm4.toNat := by
  rw [BitVec.rotateRight_def, Nat.mod_eq_of_lt imm4.isLt, rotateRight]

/-- The bits below `16 - imm4` come from above by `imm4`; the others are those that left past bit 0 (R110). -/
theorem getLsbD_rotateRight {i : Nat} (hi : i < 16) :
    (rotateRight v imm4).getLsbD i = v.getLsbD ((i + imm4.toNat) % 16) := by
  have hn : imm4.toNat < 16 := imm4.isLt
  rw [rotateRight_eq, BitVec.getLsbD_rotateRight, Nat.mod_eq_of_lt hn]
  by_cases hlow : i < 16 - imm4.toNat
  · have hsource : (i + imm4.toNat) % 16 = imm4.toNat + i := by omega
    simp [hlow, hsource]
  · have hsource : (i + imm4.toNat) % 16 = i - (16 - imm4.toNat) := by omega
    simp [hlow, hi, hsource]

end Shift

/-- Settles O15: the library's bits of an exclusive or, and the end of the logic instructions. -/
theorem xorWritesTheExclusiveOrAndZ : Obligations.XorWritesTheExclusiveOrAndZ := fun rd rs rt s =>
  ⟨decodeWord_groups 0x3#4 decodeWord_xor rd rs rt, _, s.reg rs ^^^ s.reg rt, exec_xor rd rs rt s,
    fun _ => BitVec.getLsbD_xor, finishLogic_effect s rd _⟩

/-- Settles O16, from the value of a left shift and the end of the logic instructions. -/
theorem sllShiftsLeftAndWritesZ : Obligations.SllShiftsLeftAndWritesZ := fun rd rs imm4 s =>
  ⟨decodeWord_groups 0x4#4 decodeWord_sll rd rs imm4, _, shiftLeft (s.reg rs) imm4, exec_sll rd rs imm4 s,
    toNat_shiftLeft (s.reg rs) imm4, finishLogic_effect s rd _⟩

/-- Settles O17, from the signed value of an arithmetic right shift and the end of the logic instructions. -/
theorem sraDividesRoundingDownAndWritesZ : Obligations.SraDividesRoundingDownAndWritesZ := fun rd rs imm4 s =>
  ⟨decodeWord_groups 0x5#4 decodeWord_sra rd rs imm4, _, shiftRightArith (s.reg rs) imm4,
    exec_sra rd rs imm4 s, toInt_shiftRightArith (s.reg rs) imm4, finishLogic_effect s rd _⟩

/-- Settles O18, from the bits of a rotation and the end of the logic instructions. -/
theorem rorRotatesRightAndWritesZ : Obligations.RorRotatesRightAndWritesZ := fun rd rs imm4 s =>
  ⟨decodeWord_groups 0x6#4 decodeWord_ror rd rs imm4, _, rotateRight (s.reg rs) imm4, exec_ror rd rs imm4 s,
    fun _ hi => getLsbD_rotateRight (s.reg rs) imm4 hi, finishLogic_effect s rd _⟩

end Sys2Proof.Proofs
end

section
/-! PROOFS. PADDSB: each lane of the result is the saturated sum of two lanes (`41_compute.md` R103). -/

namespace Sys2Proof.Proofs

open Sys2Proof.Machine Sys2Proof.Safety Sys2Proof.Laws

/-- The four lanes stand side by side, so lane `j` is read back alone. -/
theorem extractLsb'_packedAdd (a b : Word) {j : Nat} (hj : j < 4) :
    (packedAdd a b).extractLsb' (4 * j) 4 =
      sat 4 ((a.extractLsb' (4 * j) 4).toInt + (b.extractLsb' (4 * j) 4).toInt) := by
  match j, hj with
  | 0, _ => exact field_pack4_0 _ _ _ (laneAdd a b 0)
  | 1, _ => exact field_pack4_4 _ _ (laneAdd a b 1) _
  | 2, _ => exact field_pack4_8 _ (laneAdd a b 2) _ _
  | 3, _ => exact field_pack4_12 (laneAdd a b 3) _ _ _

/-- Settles O11, from the lanes of the result and the end of the instructions that write no flag. -/
theorem paddsbAddsFourLanesSaturatingAndKeepsFlags :
    Obligations.PaddsbAddsFourLanesSaturatingAndKeepsFlags := by
  intro rd rs rt s
  refine ⟨decodeWord_groups 0x7#4 decodeWord_paddsb rd rs rt, _, packedAdd (s.reg rs) (s.reg rt),
    exec_paddsb rd rs rt s, fun j k hj hk => ?_, finishPlain_effect s rd _⟩
  rw [extractLsb'_packedAdd _ _ hj, ← hk, sat4_spec]

end Sys2Proof.Proofs
end

section
/-!
PROOFS. Saturation at every width clamps the exact integer to the limits of two's complement, and ADD, SUB and
the lanes of PADDSB write the clamped result (`41_compute.md` R100).
-/

namespace Sys2Proof.Proofs

open Sys2Proof.Machine Sys2Proof.Laws

section Clamp
variable {N : Nat} {k : Int}

theorem satMin_le_satMax : satMin N ≤ satMax N := by
  have hpos : 0 < 2 ^ (N - 1) := by positivity
  unfold satMin satMax
  omega

theorem sat_of_satMax_lt (h : satMax N < k) : sat N k = BitVec.ofInt N (satMax N) := if_pos h

theorem sat_of_lt_satMin (h : k < satMin N) : sat N k = BitVec.ofInt N (satMin N) := by
  have hle : satMin N ≤ satMax N := satMin_le_satMax
  rw [sat, if_neg (by omega), if_pos h]

/-- Within the limits the exact integer is representable and nothing is lost. -/
theorem toInt_sat_of_mem (hN : 0 < N) (hmin : satMin N ≤ k) (hmax : k ≤ satMax N) :
    (sat N k).toInt = k := by
  rw [sat, if_neg (by omega), if_neg (by omega)]
  unfold satMin at hmin
  unfold satMax at hmax
  push_cast at hmin hmax
  exact BitVec.toInt_ofInt_eq_self hN hmin (by omega)

end Clamp

/-- A lane of `rd` after PADDSB: the saturated sum of the operands' lanes, or 0 when `rd` is `$0`. -/
theorem reg_finishPlain_packedAdd_lane (s : State) (rd : RegNum) (a b : Word) {j : Nat} (hj : j < 4) :
    ((s.finishPlain rd (packedAdd a b)).reg rd).extractLsb' (4 * j) 4 =
      if rd = 0#4 then 0x0#4
      else sat 4 ((a.extractLsb' (4 * j) 4).toInt + (b.extractLsb' (4 * j) 4).toInt) := by
  rw [finishPlain_reg, reg_setReg_same]
  split
  · exact BitVec.extractLsb'_zero
  · exact extractLsb'_packedAdd a b hj

/-- Settles O8: the three clauses on each width are the clamp at that width, and each instruction's equation
names its exact result. -/
theorem saturatedResultIsTheClampedExactResult : Obligations.SaturatedResultIsTheClampedExactResult := by
  refine ⟨fun k => ⟨?_, ?_, ?_, ?_, ?_, ?_⟩, fun rd rs rt s => ⟨?_, ?_, ?_⟩⟩
  · exact sat_of_satMax_lt (N := 16)
  · exact sat_of_lt_satMin (N := 16)
  · exact toInt_sat_of_mem (N := 16) (by decide)
  · exact sat_of_satMax_lt (N := 4)
  · exact sat_of_lt_satMin (N := 4)
  · exact toInt_sat_of_mem (N := 4) (by decide)
  · exact ⟨_, exec_add rd rs rt s, reg_setReg_same s rd _⟩
  · exact ⟨_, _, exec_sub rd rs rt s, .inl rfl, reg_setReg_same s rd _⟩
  · exact ⟨_, exec_paddsb rd rs rt s, fun _ hj => reg_finishPlain_packedAdd_lane s rd _ _ hj⟩

end Sys2Proof.Proofs
end

section
/-!
PROOFS. Words of an opcode, a register number and a byte: their groups read back, and what a word written as an
opcode and two shifted operands decodes to (`30_encoding.md` R64).
-/

namespace Sys2Proof.Proofs

section Groups
variable (op rd : BitVec 4) (imm8 : BitVec 8)

@[simp] theorem field_pack8_12 : field (pack8 op rd imm8) 12 4 = op :=
  BitVec.extractLsb'_append_eq_of_le (by decide) |>.trans BitVec.extractLsb'_append_eq_left

@[simp] theorem field_pack8_8 : field (pack8 op rd imm8) 8 4 = rd :=
  BitVec.extractLsb'_append_eq_of_le (by decide) |>.trans BitVec.extractLsb'_append_eq_right

@[simp] theorem field_pack8_0 : field (pack8 op rd imm8) 0 8 = imm8 := BitVec.extractLsb'_append_eq_right

/-- The opcode, the register number and the byte side by side are the three shifted to their places. -/
theorem pack8_eq_or :
    pack8 op rd imm8 = op.setWidth 16 <<< 12 ||| rd.setWidth 16 <<< 8 ||| imm8.setWidth 16 :=
  (BitVec.setWidth_eq _).symm.trans BitVec.setWidth_append_append_eq_shiftLeft_setWidth_or

end Groups

/-- A word made of an opcode, a register number and a byte decodes to the instruction `mk` of that opcode's row,
with those operands. -/
theorem decodeWord_immediate {mk : RegNum → BitVec 8 → Instr} (op : BitVec 4)
    (hrow : ∀ {w : Word}, field w 12 4 = op → decodeWord w = mk (field w 8 4) (field w 0 8))
    (rd : RegNum) (imm8 : BitVec 8) :
    decodeWord (op.setWidth 16 <<< 12 ||| rd.setWidth 16 <<< 8 ||| imm8.setWidth 16) = mk rd imm8 := by
  rw [← pack8_eq_or, hrow (field_pack8_12 op rd imm8), field_pack8_8, field_pack8_0]

end Sys2Proof.Proofs
end

section
/-!
PROOFS. LW and SW: the halfword at the effective address is loaded into `rt`, or replaced by it
(`42_memory_instructions.md` R121, R122).
-/

namespace Sys2Proof.Proofs

open Sys2Proof.Machine Sys2Proof.Safety Sys2Proof.Laws

/-- Moving `pc` on changes nothing that a data memory write is judged by, so a store that then advances answers
the value at the even address written, and everything else but `pc` kept. -/
theorem memWrite_advance_effect (s : State) {a : Word} (v : Word) (ha : a.toNat % 2 = 0) :
    (s.memWrite a v).advance.memRead a = v ∧ KeepsDataOutside s (s.memWrite a v).advance a ∧
    (s.memWrite a v).advance.flags = s.flags ∧ KeepsRegs s (s.memWrite a v).advance ∧
    KeepsRun s (s.memWrite a v).advance :=
  ⟨memRead_memWrite_same s v ha, keepsDataOutside_memWrite s v ha, memWrite_flags s a v,
    keepsRegs_memWrite s v a, keepsRun_memWrite s v a⟩

/-- Settles O22: the value loaded is read in the state before, and the end of the instructions that write no
flag puts it in `rt`. -/
theorem lwLoadsTheAddressedHalfword : Obligations.LwLoadsTheAddressedHalfword := fun rt rs off4 s =>
  ⟨decodeWord_groups 0x8#4 decodeWord_lw rt rs off4, _, exec_lw rt rs off4 s, finishPlain_effect s rt _⟩

/-- Settles O23: an effective address is even, so the store writes exactly the two bytes of one halfword. -/
theorem swStoresTheRegisterAtTheAddressedHalfword : Obligations.SwStoresTheRegisterAtTheAddressedHalfword :=
  fun rt rs off4 s =>
    ⟨decodeWord_groups 0x9#4 decodeWord_sw rt rs off4, _, exec_sw rt rs off4 s,
      memWrite_advance_effect s (s.reg rt) (effectiveAddress_even (s.reg rs) off4)⟩

end Sys2Proof.Proofs
end

section
/-!
PROOFS. LHB and LLB: one byte of `rd` is replaced and the other kept. The byte forms of the model are the masked
and shifted forms of `42_memory_instructions.md` R123 and R124.
-/

namespace Sys2Proof.Proofs

open Sys2Proof.Machine

section Bytes
variable (v : Word) (imm8 : BitVec 8)

/-- A mask given as two bytes masks the two bytes of a word, each on its own. -/
theorem and_append_eq_append_and (high low : BitVec 8) :
    v &&& (high ++ low : Word) = (v.extractLsb' 8 8 &&& high) ++ (v.extractLsb' 0 8 &&& low) := by
  rw [← BitVec.and_append, BitVec.extractLsb'_append_extractLsb']

/-- The mask 0x00FF clears the high byte and keeps the low one. -/
theorem and_00ff_eq_append : v &&& 0x00FF#16 = 0#8 ++ v.extractLsb' 0 8 := by
  have hmask : (0x00FF#16 : Word) = 0#8 ++ BitVec.allOnes 8 := by decide
  rw [hmask, and_append_eq_append_and, BitVec.and_zero, BitVec.and_allOnes]

/-- The mask 0xFF00 keeps the high byte and clears the low one. -/
theorem and_ff00_eq_append : v &&& 0xFF00#16 = v.extractLsb' 8 8 ++ 0#8 := by
  have hmask : (0xFF00#16 : Word) = BitVec.allOnes 8 ++ 0#8 := by decide
  rw [hmask, and_append_eq_append_and, BitVec.and_zero, BitVec.and_allOnes]

/-- Two bytes side by side are the high one shifted over the low one. -/
theorem append_eq_shiftLeft_or (high low : BitVec 8) :
    (high ++ low : Word) = high.setWidth 16 <<< 8 ||| low.setWidth 16 :=
  (BitVec.setWidth_eq _).symm.trans BitVec.setWidth_append_eq_shiftLeft_setWidth_or

/-- A zero-extended byte stands below a byte of zeros. -/
theorem setWidth_eq_zero_append : imm8.setWidth 16 = 0#8 ++ imm8 := by
  simp [append_eq_shiftLeft_or]

/-- A zero-extended byte shifted left by eight stands above a byte of zeros. -/
theorem setWidth_shiftLeft_eq_append_zero : imm8.setWidth 16 <<< 8 = imm8 ++ 0#8 := by
  simp [append_eq_shiftLeft_or]

/-- The two forms of R123. -/
theorem withHighByte_eq_or : withHighByte v imm8 = (v &&& 0x00FF#16) ||| (imm8.setWidth 16 <<< 8) := by
  rw [and_00ff_eq_append, setWidth_shiftLeft_eq_append_zero, BitVec.or_append, BitVec.zero_or,
    BitVec.or_zero, withHighByte]

/-- The two forms of R124. -/
theorem withLowByte_eq_or : withLowByte v imm8 = (v &&& 0xFF00#16) ||| imm8.setWidth 16 := by
  rw [and_ff00_eq_append, setWidth_eq_zero_append, BitVec.or_append, BitVec.zero_or, BitVec.or_zero,
    withLowByte]

end Bytes

/-- Settles O26, from the masked form of the value and the end of the instructions that write no flag. -/
theorem lhbReplacesTheHighByte : Obligations.LhbReplacesTheHighByte := fun rd imm8 s =>
  ⟨decodeWord_immediate 0xA#4 decodeWord_lhb rd imm8, _, by rw [exec_lhb, withHighByte_eq_or],
    finishPlain_effect s rd _⟩

/-- Settles O27, from the masked form of the value and the end of the instructions that write no flag. -/
theorem llbReplacesTheLowByte : Obligations.LlbReplacesTheLowByte := fun rd imm8 s =>
  ⟨decodeWord_immediate 0xB#4 decodeWord_llb rd imm8, _, by rw [exec_llb, withLowByte_eq_or],
    finishPlain_effect s rd _⟩

end Sys2Proof.Proofs
end

section
/-!
PROOFS. The conditions of B and BR: each one as its row of the table says it of the flags (`43_control.md` R130),
and the word bits it is decoded from (`30_encoding.md` R74).
-/

namespace Sys2Proof.Proofs

open Sys2Proof.Machine

section Conditions
variable (f : Flags)

@[simp] theorem condHolds_neq : condHolds .neq f = true ↔ f.z = false := by
  rw [condHolds, Bool.not_eq_true']

@[simp] theorem condHolds_eq : condHolds .eq f = true ↔ f.z = true := Iff.rfl

@[simp] theorem condHolds_gt : condHolds .gt f = true ↔ f.z = false ∧ f.n = false := by
  rw [condHolds, Bool.and_eq_true, Bool.not_eq_true', Bool.not_eq_true']

@[simp] theorem condHolds_lt : condHolds .lt f = true ↔ f.n = true := Iff.rfl

@[simp] theorem condHolds_gte : condHolds .gte f = true ↔ f.z = true ∨ (f.z = false ∧ f.n = false) := by
  rw [condHolds, Bool.or_eq_true, Bool.and_eq_true, Bool.not_eq_true', Bool.not_eq_true']

@[simp] theorem condHolds_lte : condHolds .lte f = true ↔ f.n = true ∨ f.z = true := Bool.or_eq_true_iff

@[simp] theorem condHolds_ovfl : condHolds .ovfl f = true ↔ f.v = true := Iff.rfl

@[simp] theorem condHolds_uncond : condHolds .uncond f = true := rfl

end Conditions

/-- Settles O29: the equations of opcodes 1100 and 1101 name bits 11:9 as the condition, and each value of those
bits decodes to the condition whose row stands at its place. -/
theorem conditionsFollowTheTable : Obligations.ConditionsFollowTheTable :=
  ⟨fun _ => ⟨decodeWord_b, decodeWord_br⟩,
   fun f => ⟨condHolds_neq f, condHolds_eq f, condHolds_gt f, condHolds_lt f, condHolds_gte f,
     condHolds_lte f, condHolds_ovfl f, condHolds_uncond f⟩⟩

end Sys2Proof.Proofs
end

section
/-!
PROOFS. Words of an opcode, a condition and nine bits: their groups read back, and how the nine bits of BR are
made of an unused bit, a register number and four unused bits (`30_encoding.md` R65, R66).
-/

namespace Sys2Proof.Proofs

section Groups
variable (op : BitVec 4) (c : Cond) (low : BitVec 9) (x8 : BitVec 1) (rs x : BitVec 4)

/-- The eight conditions and the eight values of `ccc` correspond (R74). -/
@[simp] theorem decodeCond_encodeCond : decodeCond (encodeCond c) = c := by cases c <;> rfl

@[simp] theorem encodeCond_decodeCond (ccc : BitVec 3) : encodeCond (decodeCond ccc) = ccc := by
  revert ccc; decide

@[simp] theorem field_pack9_12 : field (pack9 op c low) 12 4 = op :=
  BitVec.extractLsb'_append_eq_of_le (by decide) |>.trans BitVec.extractLsb'_append_eq_left

@[simp] theorem field_pack9_9 : field (pack9 op c low) 9 3 = encodeCond c :=
  BitVec.extractLsb'_append_eq_of_le (by decide) |>.trans BitVec.extractLsb'_append_eq_right

@[simp] theorem field_pack9_0 : field (pack9 op c low) 0 9 = low := BitVec.extractLsb'_append_eq_right

/-- The register number of a BR word stands above its four low unused bits. -/
@[simp] theorem field_packBr_4 : field (pack9 op c (x8 ++ rs ++ x)) 4 4 = rs :=
  BitVec.extractLsb'_append_eq_of_add_le (by decide) |>.trans <|
    BitVec.extractLsb'_append_eq_of_le (by decide) |>.trans BitVec.extractLsb'_append_eq_right

/-- The opcode, the condition and the nine bits side by side are the three shifted to their places. -/
theorem pack9_eq_or :
    pack9 op c low = op.setWidth 16 <<< 12 ||| (encodeCond c).setWidth 16 <<< 9 ||| low.setWidth 16 :=
  (BitVec.setWidth_eq _).symm.trans BitVec.setWidth_append_append_eq_shiftLeft_setWidth_or

/-- A BR word written as its five groups. -/
theorem packBr_eq_append : pack9 op c (x8 ++ rs ++ x) = op ++ encodeCond c ++ x8 ++ rs ++ x := by
  rw [pack9, BitVec.append_assoc', BitVec.append_assoc']
  rfl

end Groups

theorem decodeWord_pack9_b (c : Cond) (imm9 : BitVec 9) : decodeWord (pack9 0xC#4 c imm9) = .b c imm9 := by
  rw [decodeWord_b (field_pack9_12 _ c imm9), field_pack9_9, field_pack9_0, decodeCond_encodeCond]

/-- Whatever the unused bits of a BR word, it decodes to its condition and register (R76, log 13). -/
theorem decodeWord_pack9_br (c : Cond) (x8 : BitVec 1) (rs x : BitVec 4) :
    decodeWord (pack9 0xD#4 c (x8 ++ rs ++ x)) = .br c rs := by
  rw [decodeWord_br (field_pack9_12 _ c _), field_pack9_9, field_packBr_4, decodeCond_encodeCond]

/-- Whatever the unused bits of a PCS word, it decodes to its register (R76, log 13). -/
theorem decodeWord_pack8_pcs (rd : RegNum) (x : BitVec 8) : decodeWord (pack8 0xE#4 rd x) = .pcs rd := by
  rw [decodeWord_pcs (field_pack8_12 _ rd x), field_pack8_8]

/-- Whatever the unused bits of an HLT word, it decodes to HLT (R76, log 13). -/
theorem decodeWord_append_hlt (x : BitVec 12) : decodeWord (0xF#4 ++ x) = .hlt :=
  decodeWord_hlt BitVec.extractLsb'_append_eq_left

end Sys2Proof.Proofs
end

section
/-! PROOFS. Decoding undoes encoding, in either byte order (`30_encoding.md` sections 2, 3 and 6). -/

namespace Sys2Proof.Proofs

open Sys2Proof.Laws

/-- The canonical word of an instruction with three 4-bit operands decodes to it. -/
theorem decodeWord_pack4 {mk : RegNum → RegNum → BitVec 4 → Instr} {op : BitVec 4}
    (hrow : ∀ {w : Word}, field w 12 4 = op →
      decodeWord w = mk (field w 8 4) (field w 4 4) (field w 0 4)) (f2 f1 f0 : BitVec 4) :
    decodeWord (pack4 op f2 f1 f0) = mk f2 f1 f0 :=
  pack4_eq_or op f2 f1 f0 ▸ decodeWord_groups op hrow f2 f1 f0

/-- The canonical word of an instruction with a register and a byte decodes to it. -/
theorem decodeWord_pack8 {mk : RegNum → BitVec 8 → Instr} {op : BitVec 4}
    (hrow : ∀ {w : Word}, field w 12 4 = op → decodeWord w = mk (field w 8 4) (field w 0 8))
    (rd : RegNum) (imm8 : BitVec 8) : decodeWord (pack8 op rd imm8) = mk rd imm8 :=
  pack8_eq_or op rd imm8 ▸ decodeWord_immediate op hrow rd imm8

/-- Every instruction is what its canonical word decodes to: the row of its opcode reads back the groups its
format packs. -/
theorem decodeWord_encode (i : Instr) : decodeWord (encode i) = i := by
  cases i with
  | add rd rs rt => exact decodeWord_pack4 decodeWord_add rd rs rt
  | sub rd rs rt => exact decodeWord_pack4 decodeWord_sub rd rs rt
  | red rd rs rt => exact decodeWord_pack4 decodeWord_red rd rs rt
  | xor rd rs rt => exact decodeWord_pack4 decodeWord_xor rd rs rt
  | sll rd rs imm4 => exact decodeWord_pack4 decodeWord_sll rd rs imm4
  | sra rd rs imm4 => exact decodeWord_pack4 decodeWord_sra rd rs imm4
  | ror rd rs imm4 => exact decodeWord_pack4 decodeWord_ror rd rs imm4
  | paddsb rd rs rt => exact decodeWord_pack4 decodeWord_paddsb rd rs rt
  | lw rt rs off4 => exact decodeWord_pack4 decodeWord_lw rt rs off4
  | sw rt rs off4 => exact decodeWord_pack4 decodeWord_sw rt rs off4
  | lhb rd imm8 => exact decodeWord_pack8 decodeWord_lhb rd imm8
  | llb rd imm8 => exact decodeWord_pack8 decodeWord_llb rd imm8
  | b c imm9 => exact decodeWord_pack9_b c imm9
  | br c rs => exact decodeWord_pack9_br c 0#1 rs 0#4
  | pcs rd => exact decodeWord_pack8_pcs rd 0#8
  | hlt => exact decodeWord_append_hlt 0#12

/-- The decoder reads two bytes and leaves the others. -/
theorem decode_encodeBytes_append (o : ByteOrder) (i : Instr) (rest : List Byte) :
    decode o (encodeBytes o i ++ rest) = .ok (i, rest) :=
  calc decode o (encodeBytes o i ++ rest)
    _ = .ok (decodeWord (wordOfBytes o (bytesOfWord o (encode i)).1 (bytesOfWord o (encode i)).2), rest) := rfl
    _ = .ok (i, rest) := by rw [wordOfBytes_bytesOfWord, decodeWord_encode]

/-- Settles O1, from the round trip of the word and that of its two bytes. -/
theorem decodeOfEncodeIsTheInstruction : Obligations.DecodeOfEncodeIsTheInstruction := fun o i rest =>
  ⟨by cases i <;> rfl, decodeWord_encode i, decode_encodeBytes_append o i rest⟩

/-- Settles O4: each word has the opcode of its row, and the fields of the word evaluate to the operands. -/
theorem sampleWordsDecodeAsListed : Obligations.SampleWordsDecodeAsListed :=
  ⟨decodeWord_sub rfl, decodeWord_sra rfl, decodeWord_sw rfl, decodeWord_lhb rfl, decodeWord_b rfl,
    decodeWord_br rfl, decodeWord_pcs rfl, decodeWord_hlt rfl⟩

end Sys2Proof.Proofs
end

section
/-! PROOFS. Encoding undoes decoding but for the unused bits, which it clears (`30_encoding.md` R76). -/

namespace Sys2Proof.Proofs

open Sys2Proof.Laws

section Fields
variable (w : Word)

/-- Two fields that stand side by side are one field. -/
theorem field_append_field (lo low high : Nat) :
    field w (lo + low) high ++ field w lo low = field w lo (high + low) :=
  BitVec.extractLsb'_append_extractLsb'_eq_extractLsb' rfl

theorem field_zero_sixteen : field w 0 16 = w := BitVec.extractLsb'_eq_self

theorem pack4_fields : pack4 (field w 12 4) (field w 8 4) (field w 4 4) (field w 0 4) = w :=
  calc pack4 (field w 12 4) (field w 8 4) (field w 4 4) (field w 0 4)
    _ = field w 8 8 ++ field w 4 4 ++ field w 0 4 := by rw [pack4, field_append_field w 8 4 4]
    _ = field w 4 12 ++ field w 0 4 := by rw [field_append_field w 4 4 8]
    _ = field w 0 16 := field_append_field w 0 4 12
    _ = w := field_zero_sixteen w

theorem pack8_fields : pack8 (field w 12 4) (field w 8 4) (field w 0 8) = w :=
  calc field w 12 4 ++ field w 8 4 ++ field w 0 8
    _ = field w 8 8 ++ field w 0 8 := by rw [field_append_field w 8 4 4]
    _ = field w 0 16 := field_append_field w 0 8 8
    _ = w := field_zero_sixteen w

theorem pack9_fields : pack9 (field w 12 4) (decodeCond (field w 9 3)) (field w 0 9) = w :=
  calc field w 12 4 ++ encodeCond (decodeCond (field w 9 3)) ++ field w 0 9
    _ = field w 9 7 ++ field w 0 9 := by rw [encodeCond_decodeCond, field_append_field w 9 3 4]
    _ = field w 0 16 := field_append_field w 0 9 7
    _ = w := field_zero_sixteen w

/-- The nine bits below the condition of a BR word, with the unused ones cleared. -/
theorem field_and_br : field w 0 9 &&& 0x0F0#9 = 0#1 ++ field w 4 4 ++ 0#4 := by
  have hlow : field w 0 9 = field w 8 1 ++ field w 4 4 ++ field w 0 4 := by
    rw [field_append_field w 4 4 1, field_append_field w 0 4 5]
  have hmask : 0x0F0#9 = 0#1 ++ BitVec.allOnes 4 ++ 0#4 := by decide
  rw [hlow, hmask, BitVec.and_append, BitVec.and_append, BitVec.and_zero, BitVec.and_zero,
    BitVec.and_allOnes]

/-- The canonical BR word: the word with bit 8 and bits 3:0 cleared. -/
theorem packBr_fields :
    pack9 (field w 12 4) (decodeCond (field w 9 3)) (0#1 ++ field w 4 4 ++ 0#4) = w &&& 0xFEF0#16 := by
  have hmask : 0xFEF0#16 = BitVec.allOnes 7 ++ 0x0F0#9 := by decide
  have hw : w = field w 9 7 ++ field w 0 9 :=
    (field_zero_sixteen w).symm.trans (field_append_field w 0 9 7).symm
  calc field w 12 4 ++ encodeCond (decodeCond (field w 9 3)) ++ (0#1 ++ field w 4 4 ++ 0#4)
    _ = field w 9 7 ++ (field w 0 9 &&& 0x0F0#9) := by
      rw [encodeCond_decodeCond, field_append_field w 9 3 4, field_and_br]
    _ = (field w 9 7 ++ field w 0 9) &&& 0xFEF0#16 := by
      rw [hmask, BitVec.and_append, BitVec.and_allOnes]
    _ = w &&& 0xFEF0#16 := by rw [← hw]

/-- The canonical PCS word: the word with bits 7:0 cleared. -/
theorem packPcs_fields : pack8 (field w 12 4) (field w 8 4) 0#8 = w &&& 0xFF00#16 := by
  rw [and_ff00_eq_append, pack8, field_append_field w 8 4 4]
  rfl

/-- The canonical HLT word: the word with bits 11:0 cleared. -/
theorem packHlt_fields : field w 12 4 ++ 0#12 = w &&& 0xF000#16 := by
  have hmask : 0xF000#16 = BitVec.allOnes 4 ++ 0#12 := by decide
  have hw : w = field w 12 4 ++ field w 0 12 :=
    (field_zero_sixteen w).symm.trans (field_append_field w 0 12 4).symm
  calc field w 12 4 ++ 0#12
    _ = (field w 12 4 ++ field w 0 12) &&& 0xF000#16 := by
      rw [hmask, BitVec.and_append, BitVec.and_allOnes, BitVec.and_zero]
    _ = w &&& 0xF000#16 := by rw [← hw]

end Fields

/-- A row of three 4-bit operands uses every bit of its word. -/
theorem encode_decodeWord_groups {mk : RegNum → RegNum → BitVec 4 → Instr} {w : Word} {op : BitVec 4}
    (hop : field w 12 4 = op) (hrow : decodeWord w = mk (field w 8 4) (field w 4 4) (field w 0 4))
    (henc : ∀ f2 f1 f0, encode (mk f2 f1 f0) = pack4 op f2 f1 f0)
    (hused : ∀ f2 f1 f0, usedBits (mk f2 f1 f0) = 0xFFFF#16) :
    encode (decodeWord w) = w &&& usedBits (decodeWord w) := by
  rw [hrow, henc, hused, ← hop, pack4_fields, and_allOnes]

/-- A row of a register number and a byte uses every bit of its word. -/
theorem encode_decodeWord_immediate {mk : RegNum → BitVec 8 → Instr} {w : Word} {op : BitVec 4}
    (hop : field w 12 4 = op) (hrow : decodeWord w = mk (field w 8 4) (field w 0 8))
    (henc : ∀ rd imm8, encode (mk rd imm8) = pack8 op rd imm8)
    (hused : ∀ rd imm8, usedBits (mk rd imm8) = 0xFFFF#16) :
    encode (decodeWord w) = w &&& usedBits (decodeWord w) := by
  rw [hrow, henc, hused, ← hop, pack8_fields, and_allOnes]

theorem encode_decodeWord_b {w : Word} (hop : field w 12 4 = 0xC#4) :
    encode (decodeWord w) = w &&& usedBits (decodeWord w) := by
  rw [decodeWord_b hop, encode, ← hop, pack9_fields]
  exact (and_allOnes w).symm

theorem encode_decodeWord_br {w : Word} (hop : field w 12 4 = 0xD#4) :
    encode (decodeWord w) = w &&& usedBits (decodeWord w) := by
  rw [decodeWord_br hop, encode, ← hop, packBr_fields, usedBits]

theorem encode_decodeWord_pcs {w : Word} (hop : field w 12 4 = 0xE#4) :
    encode (decodeWord w) = w &&& usedBits (decodeWord w) := by
  rw [decodeWord_pcs hop, encode, ← hop, packPcs_fields, usedBits]

theorem encode_decodeWord_hlt {w : Word} (hop : field w 12 4 = 0xF#4) :
    encode (decodeWord w) = w &&& usedBits (decodeWord w) := by
  rw [decodeWord_hlt hop, usedBits, ← packHlt_fields, hop]
  rfl

/-- All sixteen opcodes (R69). -/
theorem opcode_cases (op : BitVec 4) :
    op = 0x0#4 ∨ op = 0x1#4 ∨ op = 0x2#4 ∨ op = 0x3#4 ∨ op = 0x4#4 ∨ op = 0x5#4 ∨ op = 0x6#4 ∨ op = 0x7#4 ∨
    op = 0x8#4 ∨ op = 0x9#4 ∨ op = 0xA#4 ∨ op = 0xB#4 ∨ op = 0xC#4 ∨ op = 0xD#4 ∨ op = 0xE#4 ∨ op = 0xF#4 := by
  revert op
  decide

/-- Settles O2, one row of the opcode table at a time. -/
theorem encodeOfDecodeClearsOnlyUnusedBits : Obligations.EncodeOfDecodeClearsOnlyUnusedBits := by
  intro w
  obtain hop | hop | hop | hop | hop | hop | hop | hop | hop | hop | hop | hop | hop | hop | hop | hop :=
    opcode_cases (field w 12 4)
  · exact encode_decodeWord_groups hop (decodeWord_add hop) (fun _ _ _ => rfl) fun _ _ _ => rfl
  · exact encode_decodeWord_groups hop (decodeWord_sub hop) (fun _ _ _ => rfl) fun _ _ _ => rfl
  · exact encode_decodeWord_groups hop (decodeWord_red hop) (fun _ _ _ => rfl) fun _ _ _ => rfl
  · exact encode_decodeWord_groups hop (decodeWord_xor hop) (fun _ _ _ => rfl) fun _ _ _ => rfl
  · exact encode_decodeWord_groups hop (decodeWord_sll hop) (fun _ _ _ => rfl) fun _ _ _ => rfl
  · exact encode_decodeWord_groups hop (decodeWord_sra hop) (fun _ _ _ => rfl) fun _ _ _ => rfl
  · exact encode_decodeWord_groups hop (decodeWord_ror hop) (fun _ _ _ => rfl) fun _ _ _ => rfl
  · exact encode_decodeWord_groups hop (decodeWord_paddsb hop) (fun _ _ _ => rfl) fun _ _ _ => rfl
  · exact encode_decodeWord_groups hop (decodeWord_lw hop) (fun _ _ _ => rfl) fun _ _ _ => rfl
  · exact encode_decodeWord_groups hop (decodeWord_sw hop) (fun _ _ _ => rfl) fun _ _ _ => rfl
  · exact encode_decodeWord_immediate hop (decodeWord_lhb hop) (fun _ _ => rfl) fun _ _ => rfl
  · exact encode_decodeWord_immediate hop (decodeWord_llb hop) (fun _ _ => rfl) fun _ _ => rfl
  · exact encode_decodeWord_b hop
  · exact encode_decodeWord_br hop
  · exact encode_decodeWord_pcs hop
  · exact encode_decodeWord_hlt hop

end Sys2Proof.Proofs
end

section
/-!
PROOFS. The fetch and the step as equivalences: when a fetch gives an instruction or a fault, and when a step
answers a next state or a fault (`20_memory.md` R43, `60_exceptions.md` R153, `70_reset_and_hazards.md` R170).
-/

namespace Sys2Proof.Proofs

open Sys2Proof.Machine Sys2Proof.Laws

variable {s t : State} {i : Instr}

theorem fetch_of_odd (hodd : s.pc.toNat % 2 = 1) : s.fetch = .error (.misalignedFetch s.pc) := by
  obtain ⟨-, hf⟩ | ⟨heven, -, -⟩ | ⟨heven, -⟩ := fetch_cases s
  · exact hf
  all_goals omega

theorem fetch_of_imemRead_none (heven : s.pc.toNat % 2 = 0) (hnone : s.imemRead s.pc = none) :
    s.fetch = .error (.fetchOutsideImage s.pc) := by
  obtain ⟨hodd, -⟩ | ⟨-, -, hf⟩ | ⟨-, w, hw, -⟩ := fetch_cases s
  · omega
  · exact hf
  · simp [hnone] at hw

theorem fetch_of_imemRead_some {w : Word} (heven : s.pc.toNat % 2 = 0) (hw : s.imemRead s.pc = some w) :
    s.fetch = .ok (decodeWord w) := by
  obtain ⟨hodd, -⟩ | ⟨-, hnone, -⟩ | ⟨-, v, hv, hf⟩ := fetch_cases s
  · omega
  · simp [hw] at hnone
  · obtain rfl : w = v := Option.some.inj (hw.symm.trans hv)
    exact hf

theorem fetch_eq_ok_iff : s.fetch = .ok i ↔
    s.pc.toNat % 2 = 0 ∧ ∃ w, s.imemRead s.pc = some w ∧ decodeWord w = i := by
  refine ⟨fun hf => ?_, fun ⟨heven, w, hw, hi⟩ => hi ▸ fetch_of_imemRead_some heven hw⟩
  obtain ⟨-, he⟩ | ⟨-, -, he⟩ | ⟨heven, w, hw, ho⟩ := fetch_cases s
  · simp [he] at hf
  · simp [he] at hf
  · exact ⟨heven, w, hw, Except.ok.inj (ho.symm.trans hf)⟩

theorem fetch_eq_error_iff {f : Fault} : s.fetch = .error f ↔
    (s.pc.toNat % 2 = 1 ∧ f = .misalignedFetch s.pc) ∨
    (s.pc.toNat % 2 = 0 ∧ s.imemRead s.pc = none ∧ f = .fetchOutsideImage s.pc) := by
  constructor
  · intro hf
    obtain ⟨hodd, he⟩ | ⟨heven, hnone, he⟩ | ⟨-, w, -, ho⟩ := fetch_cases s
    · exact .inl ⟨hodd, Except.error.inj (hf.symm.trans he)⟩
    · exact .inr ⟨heven, hnone, Except.error.inj (hf.symm.trans he)⟩
    · simp [ho] at hf
  · rintro (⟨hodd, rfl⟩ | ⟨heven, hnone, rfl⟩)
    · exact fetch_of_odd hodd
    · exact fetch_of_imemRead_none heven hnone

theorem step_of_fetch_ok (hr : s.rstN = true) (hf : s.fetch = .ok i) : step s = exec i s := by
  simp only [step, hr, hf, if_true]

theorem step_of_fetch_error {f : Fault} (hr : s.rstN = true) (hf : s.fetch = .error f) :
    step s = .fault f := by
  simp only [step, hr, hf, if_true]

theorem step_of_rstN_low (hr : s.rstN = false) : step s = .next (resetEvent s) := by
  simp [step, hr]

/-- A next state comes from the Reset event or from the instruction fetched. -/
theorem step_next_cases (h : step s = .next t) :
    (s.rstN = false ∧ t = resetEvent s) ∨ (s.rstN = true ∧ ∃ i, s.fetch = .ok i ∧ exec i s = .next t) := by
  obtain ⟨hr, hs⟩ | ⟨-, f, -, hs⟩ | ⟨hr, i, hf, hs⟩ := step_cases s
  · rw [hs] at h
    exact .inl ⟨hr, (Host.Outcome.next.inj h).symm⟩
  · simp [hs] at h
  · exact .inr ⟨hr, i, hf, hs ▸ h⟩

theorem step_eq_fault_iff {f : Fault} : step s = .fault f ↔ s.rstN = true ∧ s.fetch = .error f := by
  refine ⟨fun h => ?_, fun ⟨hr, hf⟩ => step_of_fetch_error hr hf⟩
  obtain ⟨-, hs⟩ | ⟨hr, f', hf, hs⟩ | ⟨-, i, -, hs⟩ := step_cases s
  · simp [hs] at h
  · rw [hs] at h
    exact ⟨hr, Host.Outcome.fault.inj h ▸ hf⟩
  · obtain ⟨t, ht⟩ := exec_completes i s
    simp [hs, ht] at h

theorem step_ne_refused (s : State) (r : Refusal) : step s ≠ .refused r := by
  obtain ⟨-, hs⟩ | ⟨-, f, -, hs⟩ | ⟨-, i, -, hs⟩ := step_cases s
  · simp [hs]
  · simp [hs]
  · obtain ⟨t, ht⟩ := exec_completes i s
    simp [hs, ht]

end Sys2Proof.Proofs
end

section
/-!
PROOFS. What a step runs, when it faults, and what it keeps: both memories canonical, instruction memory and the
parameters untouched (`20_memory.md` sections 1, 2 and 4, `60_exceptions.md` sections 1 and 2).
-/

namespace Sys2Proof.Proofs

open Sys2Proof.Machine Sys2Proof.Safety Sys2Proof.Laws

/-- An instruction keeps both memories canonical: it writes at most one halfword of data memory. -/
theorem exec_keeps_canonical {i : Instr} {s t : State} (hs : Canonical s) (ht : exec i s = .next t) :
    Canonical t := by
  obtain ⟨himem, hdmem⟩ := hs
  obtain ⟨hkeeps, -, -, -⟩ := exec_keepsRun i ht
  refine ⟨hkeeps ▸ himem, ?_⟩
  obtain hsame | ⟨rt, rs, off4, -, hstore⟩ := exec_dmem i ht
  · rw [hsame]; exact hdmem
  · rw [hstore]; exact wf_setHalf _ _ _ hdmem

/-- The Reset event keeps both memories, and so their form. -/
theorem resetEvent_keeps_canonical {s : State} (hs : Canonical s) : Canonical (resetEvent s) := by
  rw [Canonical, resetEvent_imem, resetEvent_dmem]
  exact hs

/-- Settles O44: the Reset event keeps both memories, and every instruction keeps them canonical. -/
theorem everyStepKeepsTheMemoriesCanonical : Obligations.EveryStepKeepsTheMemoriesCanonical := by
  intro s t hs ht
  obtain ⟨-, rfl⟩ | ⟨-, i, -, hi⟩ := step_next_cases ht
  · exact resetEvent_keeps_canonical hs
  · exact exec_keeps_canonical hs hi

/-- Settles O45: an empty memory is canonical. -/
theorem resetMemoriesAreCanonical : Obligations.ResetMemoriesAreCanonical := ⟨rfl, rfl⟩

/-- Settles O5: the two listed bytes are the word the fetch reads, and that word decodes to the instruction. -/
theorem stepRunsTheDecodedInstruction : Obligations.StepRunsTheDecodedInstruction := by
  intro s b0 b1 i hr heven h0 h1 hdecode
  have hword : s.imemRead s.pc = some (wordOfBytes s.config.byteOrder b0 b1) := by
    simp only [State.imemRead, Memory.half?, toNat_succ_of_even heven, h0, h1]
  have hi : decodeWord (wordOfBytes s.config.byteOrder b0 b1) = i := by
    cases hdecode; rfl
  exact step_of_fetch_ok hr (fetch_eq_ok_iff.mpr ⟨heven, _, hword, hi⟩)

/-- The word placed at an even `pc` is the one the next fetch reads. -/
theorem imemRead_withFetchWord (s : State) (w : Word) (heven : s.pc.toNat % 2 = 0) :
    (s.withFetchWord 16 w.toNat).imemRead s.pc = some w := by
  have hw : BitVec.ofNat 16 (w.toNat % 2 ^ 16) = w := by
    rw [Nat.mod_eq_of_lt w.isLt, BitVec.ofNat_toNat, BitVec.setWidth_eq]
  rw [State.withFetchWord, hw]
  exact half?_setHalf_same s.config.byteOrder s.imem w heven

/-- Settles O6: the fetch reads the word placed, which decodes to the instruction. -/
theorem placedInstructionIsRunNext : Obligations.PlacedInstructionIsRunNext := fun s i heven =>
  step_of_fetch_ok (withFetchWord_rstN s 16 _)
    (fetch_eq_ok_iff.mpr ⟨heven, _, imemRead_withFetchWord s (encode i) heven, decodeWord_encode i⟩)

/-- Settles O42: every instruction completes, so a step faults exactly when its fetch does. -/
theorem theOnlyFaultsAreTheTwoFetchFaults : Obligations.TheOnlyFaultsAreTheTwoFetchFaults := fun s =>
  ⟨step_ne_refused s, fun _ => step_eq_fault_iff.trans (and_congr_right fun _ => fetch_eq_error_iff)⟩

/-- An instruction run with another instruction memory: the same state, but for that memory. -/
theorem exec_with_imem {i : Instr} {s t : State} (m : Memory) (ht : exec i s = .next t) :
    exec i { s with imem := m } = .next { t with imem := m } := by
  cases i <;> cases ht <;> rfl

/-- Settles O41: neither the Reset event nor an instruction writes instruction memory or a parameter, and no
instruction's meaning mentions instruction memory. -/
theorem nothingWritesInstructionMemoryAndNoInstructionReadsIt :
    Obligations.NothingWritesInstructionMemoryAndNoInstructionReadsIt := by
  refine ⟨fun s t ht => ?_, fun i s m => ?_⟩
  · obtain ⟨-, rfl⟩ | ⟨-, i, -, hi⟩ := step_next_cases ht
    · exact ⟨resetEvent_imem s, resetEvent_config s⟩
    · obtain ⟨himem, hconfig, -, -⟩ := exec_keepsRun i hi
      exact ⟨himem, hconfig⟩
  · obtain ⟨t, ht⟩ := exec_completes i s
    exact ⟨t, ht, exec_with_imem m ht⟩

/-- Settles O7, from the laws of the register file. -/
theorem registersAreIndependentAndZeroIsHardwired : Obligations.RegistersAreIndependentAndZeroIsHardwired :=
  fun s _ r v => ⟨reg_zero s, setReg_zero s v, fun hr => (reg_setReg_same s r v).trans (if_neg hr),
    reg_setReg_ne s v⟩

end Sys2Proof.Proofs
end

section
/-!
PROOFS. HLT: the step to the same state, the pin `hlt`, and the end of a run (`43_control.md` R134, R136,
`60_exceptions.md` R162).
-/

namespace Sys2Proof.Proofs

open Sys2Proof.Machine Sys2Proof.Safety Sys2Proof.Laws

/-- Exactly the words with opcode 1111 decode to HLT: the canonical word keeps the opcode of every word. -/
theorem decodeWord_eq_hlt_iff {w : Word} : decodeWord w = .hlt ↔ field w 12 4 = 0xF#4 := by
  refine ⟨fun hw => ?_, decodeWord_hlt⟩
  have hcanonical : encode .hlt = w &&& usedBits .hlt := hw ▸ encodeOfDecodeClearsOnlyUnusedBits w
  have hpack : field w 12 4 ++ 0#12 = 0xF#4 ++ 0#12 := (packHlt_fields w).trans hcanonical.symm
  calc field w 12 4
    _ = (field w 12 4 ++ 0#12).extractLsb' 12 4 := BitVec.extractLsb'_append_eq_left.symm
    _ = 0xF#4 := by rw [hpack, BitVec.extractLsb'_append_eq_left]

theorem hltPin_iff {s : State} : s.hltPin = true ↔ s.fetch = .ok .hlt := by
  unfold State.hltPin
  split
  next hf => exact ⟨fun _ => hf, fun _ => rfl⟩
  next hne => exact ⟨nofun, fun hf => absurd hf hne⟩

/-- Settles O49, from the fetch of HLT and the words that decode to it. -/
theorem hltPinIsHighExactlyAtAnHltWord : Obligations.HltPinIsHighExactlyAtAnHltWord := by
  intro s
  rw [hltPin_iff, fetch_eq_ok_iff]
  simp only [decodeWord_eq_hlt_iff, field]

/-- `k` more steps after the first `n`, of any machine. -/
theorem run_add {M : Host.Core} {s t : M.State} {n : Nat} (k : Nat) (hn : M.run n s = .next t) :
    M.run (n + k) s = M.run k t := by
  induction n generalizing s with
  | zero =>
    obtain rfl : s = t := Host.Outcome.next.inj hn
    rw [Nat.zero_add]
  | succ n ih =>
    rw [Nat.add_right_comm]
    simp only [Host.Core.run] at hn ⊢
    split at hn
    next => exact ih hn
    next => cases hn
    next => cases hn

/-- A machine that steps to itself never leaves its state. -/
theorem run_of_step_self {M : Host.Core} {s : M.State} (hs : M.step s = .next s) (n : Nat) :
    M.run n s = .next s := by
  induction n with
  | zero => rfl
  | succ n ih => simpa only [Host.Core.run, hs] using ih

/-- While `rst_n` is high, a machine at HLT steps to itself. -/
theorem step_of_fetch_hlt {s : State} (hr : s.rstN = true) (hf : s.fetch = .ok .hlt) : step s = .next s :=
  step_of_fetch_ok hr hf

/-- Settles O33: HLT is a step to the same state, so every run of it is. -/
theorem hltFreezesTheMachineUntilReset : Obligations.HltFreezesTheMachineUntilReset :=
  ⟨decodeWord_append_hlt, exec_hlt, fun _ hf =>
    ⟨hltPin_iff.mpr hf, fun hr => run_of_step_self (M := core) (step_of_fetch_hlt hr hf)⟩⟩

/-- A run goes no further than its first final state. -/
theorem run_of_final {t : State} (ht : Final t) (n : Nat) : Host.Core.run core n t = .next t := by
  obtain ⟨hr, hpin⟩ := ht
  exact run_of_step_self (M := core) (step_of_fetch_hlt hr (hltPin_iff.mp hpin)) n

/-- A run that is in a final state after `n` steps is there after any later number. -/
theorem eq_of_run_le {s t t' : State} {n m : Nat} (hle : n ≤ m) (hn : Host.Core.run core n s = .next t)
    (ht : Final t) (hm : Host.Core.run core m s = .next t') : t = t' := by
  obtain ⟨k, rfl⟩ := Nat.exists_eq_add_of_le hle
  exact Host.Outcome.next.inj ((run_of_final ht k).symm.trans ((run_add k hn).symm.trans hm))

/-- Settles O50: of two ends of one run, the later is the earlier. -/
theorem aRunHasAtMostOneFinalState : Obligations.ARunHasAtMostOneFinalState := by
  rintro s t t' ⟨n, hn, ht⟩ ⟨m, hm, ht'⟩
  obtain hle | hle := Nat.le_total n m
  · exact eq_of_run_le hle hn ht hm
  · exact (eq_of_run_le hle hm ht' hn).symm

end Sys2Proof.Proofs
end

section
/-!
PROOFS. Address arithmetic as integers modulo 2^16 (`10_state.md` R25, `42_memory_instructions.md` R120,
`43_control.md` R131).
-/

namespace Sys2Proof.Proofs

open Sys2Proof.Machine Sys2Proof.Laws

/-- Adding a sign-extended offset scaled by `2^k` is integer addition modulo 2^16. -/
theorem toNat_add_scaled_offset {n : Nat} (v : Word) (off : BitVec n) (k : Nat) :
    ((v + off.signExtend 16 <<< k).toNat : Int) = ((v.toNat : Int) + off.toInt * 2 ^ k) % 65536 := by
  have hpow : BitVec.twoPow 16 k = BitVec.ofInt 16 (2 ^ k) := by
    apply BitVec.eq_of_toNat_eq
    rw [BitVec.toNat_twoPow, ← BitVec.toNat_ofNat, ← BitVec.ofInt_natCast]
    push_cast
    rfl
  have hoff : off.signExtend 16 <<< k = BitVec.ofInt 16 (off.toInt * 2 ^ k) := by
    rw [BitVec.shiftLeft_eq_mul_twoPow, BitVec.signExtend, BitVec.ofInt_mul, hpow]
  have hsum : v + off.signExtend 16 <<< k = BitVec.ofInt 16 ((v.toNat : Int) + off.toInt * 2 ^ k) := by
    rw [hoff, BitVec.ofInt_add, BitVec.ofInt_natCast, BitVec.ofNat_toNat, BitVec.setWidth_eq]
  rw [hsum, BitVec.toNat_ofInt]
  exact Int.toNat_of_nonneg (Int.emod_nonneg _ (by decide))

theorem toNat_nextPc (pc : Word) : (nextPc pc).toNat = (pc.toNat + 2) % 65536 := BitVec.toNat_add pc 2#16

theorem toNat_branchTarget (bshift : Fin 2) (pc : Word) (imm9 : BitVec 9) :
    ((branchTarget bshift pc imm9).toNat : Int) =
      ((pc.toNat : Int) + 2 + imm9.toInt * 2 ^ (bshift : Nat)) % 65536 := by
  rw [branchTarget, toNat_add_scaled_offset, toNat_nextPc]
  omega

/-- Settles O19: the mask drops bit 0 of the base, and the offset is scaled by 2. -/
theorem effectiveAddressIsBasePlusTwiceTheOffset : Obligations.EffectiveAddressIsBasePlusTwiceTheOffset := by
  intro base off4
  rw [effectiveAddress, toNat_add_scaled_offset, and_fffe_toNat]
  omega

/-- An odd target of B from an even `pc` needs an odd offset that is not scaled (`10_state.md` R26). -/
theorem odd_offset_of_branchTarget_odd {bshift : Fin 2} {pc : Word} {imm9 : BitVec 9}
    (heven : pc.toNat % 2 = 0) (hodd : (branchTarget bshift pc imm9).toNat % 2 = 1) :
    imm9.toNat % 2 = 1 ∧ bshift = 0 := by
  have htarget := toNat_branchTarget bshift pc imm9
  have himm : imm9.toInt % 2 = (imm9.toNat : Int) % 2 := by
    rw [BitVec.toInt_eq_toNat_cond]
    split <;> omega
  match bshift with
  | 0 => exact ⟨by simp only [Fin.val_zero, pow_zero] at htarget; omega, rfl⟩
  | 1 => simp only [Fin.val_one, pow_one] at htarget; omega

end Sys2Proof.Proofs
end

section
/-!
PROOFS. The program counter after an instruction, in one place: pc + 2, unless the instruction is HLT or a taken
branch (`10_state.md` R25 to R27).
-/

namespace Sys2Proof.Proofs

open Sys2Proof.Machine Sys2Proof.Laws

/-- The `pc` after an instruction that starts at `p`, everything else being as in `s`. -/
def newPc (i : Instr) (s : State) (p : Word) : Word :=
  match i with
  | .hlt => p
  | .b c imm9 => if condHolds c s.flags then branchTarget s.config.bshift p imm9 else nextPc p
  | .br c rs => if condHolds c s.flags then s.reg rs else nextPc p
  | _ => nextPc p

/-- `newPc` is the `pc` an instruction ends with. -/
theorem exec_pc {i : Instr} {s t : State} (ht : exec i s = .next t) : t.pc = newPc i s s.pc := by
  cases i <;> cases ht <;> rfl

/-- The four ways of the program counter, each the same from every `p`. -/
theorem newPc_cases (i : Instr) (s : State) :
    (∀ p, newPc i s p = nextPc p) ∨
    (i = .hlt ∧ ∀ p, newPc i s p = p) ∨
    (∃ c imm9, i = .b c imm9 ∧ condHolds c s.flags = true ∧
      ∀ p, newPc i s p = branchTarget s.config.bshift p imm9) ∨
    (∃ c rs, i = .br c rs ∧ condHolds c s.flags = true ∧ ∀ p, newPc i s p = s.reg rs) := by
  cases i with
  | hlt => exact .inr (.inl ⟨rfl, fun _ => rfl⟩)
  | b c imm9 =>
    by_cases hc : condHolds c s.flags = true
    · exact .inr (.inr (.inl ⟨c, imm9, rfl, hc, fun _ => if_pos hc⟩))
    · exact .inl fun _ => if_neg hc
  | br c rs =>
    by_cases hc : condHolds c s.flags = true
    · exact .inr (.inr (.inr ⟨c, rs, rfl, hc, fun _ => if_pos hc⟩))
    · exact .inl fun _ => if_neg hc
  | _ => exact .inl fun _ => rfl

/-- Run from another `pc`, an instruction other than PCS ends in the same state but for `pc`. -/
theorem exec_setPc {i : Instr} {s t : State} (p : Word) (hi : ∀ rd, i ≠ .pcs rd)
    (ht : exec i s = .next t) : exec i (s.setPc p) = .next (t.setPc (newPc i s p)) := by
  cases i with
  | pcs rd => exact absurd rfl (hi rd)
  | _ => cases ht; rfl

/-- No instruction but BR takes its new `pc` from a register. -/
theorem newPc_setReg {i : Instr} (s : State) (q : RegNum) (v p : Word) (hi : ∀ c rs, i ≠ .br c rs) :
    newPc i (s.setReg q v) p = newPc i s p := by
  cases i with
  | br c rs => exact absurd rfl (hi c rs)
  | _ => rfl

/-- Settles O34: of the four ways of the program counter, three are excluded. -/
theorem sequentialInstructionsAdvancePcByTwo : Obligations.SequentialInstructionsAdvancePcByTwo := by
  intro i s hhlt hb hbr
  obtain ⟨t, ht⟩ := exec_completes i s
  refine ⟨t, ht, ?_⟩
  obtain hnext | ⟨rfl, -⟩ | ⟨c, imm9, hi, hc, -⟩ | ⟨c, rs, hi, hc, -⟩ := newPc_cases i s
  · rw [exec_pc ht, hnext, toNat_nextPc]
  · exact absurd rfl hhlt
  · simp [hb c imm9 hi] at hc
  · simp [hbr c rs hi] at hc

/-- Settles O43: pc + 2 and HLT keep an even `pc` even, so only the two taken branches are left. -/
theorem pcBecomesOddOnlyThroughATakenBranch : Obligations.PcBecomesOddOnlyThroughATakenBranch := by
  intro s t heven hstep hodd
  obtain ⟨-, rfl⟩ | ⟨-, i, hf, hi⟩ := step_next_cases hstep
  · simp at hodd
  rw [exec_pc hi] at hodd
  obtain hnext | ⟨-, hsame⟩ | ⟨c, imm9, rfl, hc, htarget⟩ | ⟨c, rs, rfl, hc, htarget⟩ := newPc_cases i s
  · rw [hnext, toNat_nextPc] at hodd
    omega
  · rw [hsame] at hodd
    omega
  · rw [htarget] at hodd
    exact .inr ⟨c, imm9, hf, hc, odd_offset_of_branchTarget_odd heven hodd⟩
  · rw [htarget] at hodd
    exact .inl ⟨c, rs, hf, hc, hodd⟩

/-- What a B adds to pc + 2: its scaled offset, or nothing. -/
def branchAddend (c : Cond) (imm9 : BitVec 9) (s : State) : Word :=
  if condHolds c s.flags then imm9.signExtend 16 <<< (s.config.bshift : Nat) else 0#16

theorem newPc_b (c : Cond) (imm9 : BitVec 9) (s : State) (p : Word) :
    newPc (.b c imm9) s p = nextPc p + branchAddend c imm9 s := by
  simp only [newPc, branchAddend]
  split
  · rfl
  · exact (BitVec.add_zero _).symm

/-- PCS run from another `pc`: that `pc` plus 2 in `rd` and in `pc`, and nothing else different. -/
theorem finishPlain_setPc_nextPc (s : State) (rd : RegNum) (p : Word) :
    (s.setPc p).finishPlain rd (nextPc p) =
      ((s.finishPlain rd (nextPc s.pc)).setReg rd (nextPc p)).setPc (nextPc p) := by
  have hrewrite := setReg_setReg_same s rd (nextPc s.pc) (nextPc p)
  calc (s.setPc p).finishPlain rd (nextPc p)
    _ = (s.setReg rd (nextPc p)).setPc (nextPc p) := rfl
    _ = ((s.setReg rd (nextPc s.pc)).setReg rd (nextPc p)).setPc (nextPc p) := by rw [hrewrite]
    _ = ((s.finishPlain rd (nextPc s.pc)).setReg rd (nextPc p)).setPc (nextPc p) := rfl

/-- Settles O39, from the program counter each instruction ends with. -/
theorem pcIsVisibleAndReadOnlyByPcsAndB : Obligations.PcIsVisibleAndReadOnlyByPcsAndB := by
  refine ⟨fun _ => rfl, fun i s p hi => ?_, fun c imm9 s p => ?_, fun rd s p => ?_, fun i s q v hi => ?_⟩
  · obtain ⟨t, ht⟩ := exec_completes i s
    refine ⟨t, _, ht, exec_setPc p hi ht, rfl, fun hb => ?_⟩
    rw [setPc_pc, exec_pc ht]
    obtain hnext | ⟨rfl, hsame⟩ | ⟨c, imm9, rfl, -, -⟩ | ⟨c, rs, rfl, hc, htarget⟩ := newPc_cases i s
    · exact .inr (.inr ⟨hnext s.pc, hnext p⟩)
    · exact .inr (.inl ⟨rfl, hsame s.pc, hsame p⟩)
    · exact absurd rfl (hb c imm9)
    · exact .inl ⟨⟨c, rs, rfl, hc⟩, (htarget p).trans (htarget s.pc).symm⟩
  · exact ⟨_, _, branchAddend c imm9 s, exec_b c imm9 s, exec_b c imm9 (s.setPc p), newPc_b c imm9 s s.pc,
      newPc_b c imm9 s p⟩
  · exact ⟨_, exec_pcs rd s, congrArg Host.Outcome.next (finishPlain_setPc_nextPc s rd p)⟩
  · obtain ⟨t, ht⟩ := exec_completes i s
    obtain ⟨t', ht'⟩ := exec_completes i (s.setReg q v)
    exact ⟨t, t', ht, ht', by rw [exec_pc ht', exec_pc ht, setReg_pc, newPc_setReg s q v _ hi]⟩

end Sys2Proof.Proofs
end

section
/-!
PROOFS. B, BR and PCS: what each leaves in `pc` and in its register, and the fault after an odd target
(`43_control.md` R131 to R133, R135).
-/

namespace Sys2Proof.Proofs

open Sys2Proof.Machine Sys2Proof.Safety Sys2Proof.Laws

/-- An instruction that only assigns `pc` keeps everything else. -/
theorem setPc_effect (s : State) (v : Word) :
    (s.setPc v).flags = s.flags ∧ KeepsRegs s (s.setPc v) ∧ KeepsData s (s.setPc v) ∧
    KeepsRun s (s.setPc v) :=
  ⟨setPc_flags s v, setPc_reg s v, keepsData_of_dmem_eq (setPc_dmem s v) (setPc_config s v),
    setPc_imem s v, setPc_config s v, setPc_rstN s v, setPc_draws s v⟩

/-- A B word written as an opcode and two shifted operands decodes to them. -/
theorem decodeWord_b_or (c : Cond) (imm9 : BitVec 9) :
    decodeWord (0xC000#16 ||| (encodeCond c).setWidth 16 <<< 9 ||| imm9.setWidth 16) = .b c imm9 :=
  (congrArg decodeWord (pack9_eq_or 0xC#4 c imm9)).symm.trans (decodeWord_pack9_b c imm9)

/-- Settles O30, from the two targets as integers and the frame of an assignment to `pc`. -/
theorem branchGoesToPcPlusTwoPlusTheOffset : Obligations.BranchGoesToPcPlusTwoPlusTheOffset := by
  intro c imm9 s
  refine ⟨decodeWord_b_or c imm9, _, exec_b c imm9 s, ?_, setPc_effect s _⟩
  rw [setPc_pc]
  split
  · exact toNat_branchTarget s.config.bshift s.pc imm9
  · rw [toNat_nextPc]
    norm_cast

/-- Settles O31: the groups of a BR word, the target its definition names, and the frame of an assignment to
`pc`. -/
theorem branchRegisterGoesToTheUnmaskedRegister : Obligations.BranchRegisterGoesToTheUnmaskedRegister :=
  fun c rs x8 x s =>
    ⟨packBr_eq_append 0xD#4 c x8 rs x ▸ decodeWord_pack9_br c x8 rs x, packBr_eq_append 0xD#4 c 0#1 rs 0#4,
      _, exec_br c rs s, rfl, setPc_effect s _⟩

/-- Settles O32, from the end of the instructions that write no flag. -/
theorem pcsSavesTheNextProgramCounter : Obligations.PcsSavesTheNextProgramCounter := fun rd x s =>
  ⟨decodeWord_pack8_pcs rd x, _, exec_pcs rd s, toNat_nextPc s.pc, finishPlain_effect s rd (nextPc s.pc)⟩

/-- While `rst_n` is high, a step at an odd `pc` is the fault of its fetch. -/
theorem step_of_odd_pc {s : State} (hr : s.rstN = true) (hodd : s.pc.toNat % 2 = 1) :
    step s = .fault (.misalignedFetch s.pc) :=
  step_of_fetch_error hr (fetch_of_odd hodd)

/-- Settles O35: either branch assigns its target to `pc`, and an odd one is not fetched. -/
theorem takenBranchToAnOddAddressFaultsNext : Obligations.TakenBranchToAnOddAddressFaultsNext := by
  refine ⟨fun c rs s hr hc hodd => ?_, fun c imm9 s hr hc hodd => ?_⟩
  · refine ⟨s.setPc (s.reg rs), by rw [exec_br, if_pos hc], setPc_pc s _, ?_⟩
    exact step_of_odd_pc (s := s.setPc (s.reg rs)) hr hodd
  · have htarget := toNat_branchTarget s.config.bshift s.pc imm9
    refine ⟨s.setPc (branchTarget s.config.bshift s.pc imm9), by rw [exec_b, if_pos hc], htarget, ?_⟩
    exact step_of_odd_pc (s := s.setPc (branchTarget _ _ _)) hr (by rw [setPc_pc]; omega)

end Sys2Proof.Proofs
end

section
/-!
PROOFS. The Reset event: the settings it takes, what it keeps, and what its result depends on
(`70_reset_and_hazards.md` R171, `10_state.md` R35, R36).
-/

namespace Sys2Proof.Proofs

open Sys2Proof.Machine Sys2Proof.Safety Sys2Proof.Laws

/-- Register `$(k+1)` is slot `k`. -/
theorem reg_ofNat_succ (s : State) (k : Fin 15) : s.reg (BitVec.ofNat 4 (k + 1)) = s.regs[k] := by
  have hlt : (k : Nat) + 1 < 16 := by omega
  have hne : BitVec.ofNat 4 (k + 1) ≠ 0#4 := by
    intro h
    have := congrArg BitVec.toNat h
    simp [Nat.mod_eq_of_lt hlt] at this
  simp [State.reg, hne, Nat.mod_eq_of_lt hlt]

/-- A register with a setting takes it (R35). -/
theorem resetEvent_reg {s : State} {k : Fin 15} {v : Word} (hv : s.config.resetGpr[k] = some v) :
    (resetEvent s).reg (BitVec.ofNat 4 (k + 1)) = v := by
  rw [reg_ofNat_succ, resetEvent_regs, resetRegs_get, hv, Option.getD_some]

/-- A flag with a setting takes it (R35). -/
theorem resetEvent_flags {s : State} :
    (∀ b, s.config.resetZ = some b → (resetEvent s).flags.z = b) ∧
    (∀ b, s.config.resetV = some b → (resetEvent s).flags.v = b) ∧
    (∀ b, s.config.resetN = some b → (resetEvent s).flags.n = b) :=
  ⟨fun b hb => by simp [resetEvent, hb], fun b hb => by simp [resetEvent, hb],
    fun b hb => by simp [resetEvent, hb]⟩

/-- Registers and flags after a reset come from the settings and the count of resets alone (log 4). -/
theorem resetEvent_congr {s s' : State} (hconfig : s'.config = s.config) (hdraws : s'.draws = s.draws) :
    (resetEvent s').regs = (resetEvent s).regs ∧ (resetEvent s').flags = (resetEvent s).flags := by
  simp only [resetEvent, hconfig, hdraws, and_self]

/-- Settles O48: the step is the Reset event, whose parts the lemmas above describe. -/
theorem resetEventTakesTheSettingsAndKeepsTheMemories :
    Obligations.ResetEventTakesTheSettingsAndKeepsTheMemories := by
  intro s hr
  obtain ⟨hz, hv, hn⟩ := resetEvent_flags (s := s)
  refine ⟨resetEvent s, step_of_rstN_low hr, resetEvent_pc s, reg_zero _, fun k v => resetEvent_reg, hz, hv, hn,
    keepsData_of_dmem_eq (resetEvent_dmem s) (resetEvent_config s), resetEvent_imem s, resetEvent_config s,
    resetEvent_rstN s, fun s' hr' hconfig hdraws => ?_⟩
  exact ⟨resetEvent s', step_of_rstN_low hr', resetEvent_congr hconfig hdraws⟩

/-- Settles O47: the reset state by its definition, every other state by the Reset event. -/
theorem resetStartsExecutionAtAddressZero : Obligations.ResetStartsExecutionAtAddressZero :=
  ⟨rfl, fun s => ⟨_, step_of_rstN_low (pulseReset_rstN s), resetEvent_pc _, resetEvent_rstN _⟩⟩

end Sys2Proof.Proofs
end

section
/-!
PROOFS. ADD and SUB: the saturated value, the flags it and the exact result give, and what the conditions then
say of the operands (`41_compute.md` R101, R102, R111, `43_control.md` R139).
-/

namespace Sys2Proof.Proofs

open Sys2Proof.Machine Sys2Proof.Safety Sys2Proof.Laws

/-- Saturation keeps zero apart from every other number. -/
theorem sat16_eq_zero_iff (k : Int) : sat 16 k = 0x0000#16 ↔ k = 0 := by
  rw [← BitVec.toInt_inj, toInt_sat16, BitVec.toInt_zero]
  split
  · omega
  · split <;> omega

/-- Saturation keeps the sign. -/
theorem toInt_sat16_neg_iff (k : Int) : (sat 16 k).toInt < 0 ↔ k < 0 := by
  rw [toInt_sat16]
  split
  · omega
  · split <;> omega

/-- V from the exact result, Z and N from the value written (R111, log 15). -/
theorem arithFlags_effect (k : Int) (r : Word) :
    ((arithFlags k r).v = true ↔ (32767 < k ∨ k < -32768)) ∧
    ((arithFlags k r).z = true ↔ r = 0x0000#16) ∧ ((arithFlags k r).n = true ↔ r.toInt < 0) := by
  refine ⟨?_, beq_iff_eq, ?_⟩
  · exact (Bool.or_eq_true _ _).to_iff.trans (or_congr decide_eq_true_iff decide_eq_true_iff)
  · rw [arithFlags, BitVec.msb_eq_toInt, decide_eq_true_iff]

/-- What an instruction that ends in `finishArith` answers: the saturated value in `rd`, all three flags, and
everything else but `pc` kept. -/
theorem finishArith_effect (s : State) (rd : RegNum) (k : Int) :
    (s.finishArith rd k).reg rd = (if rd = 0#4 then 0x0000#16 else sat 16 k) ∧
    ((s.finishArith rd k).flags.v = true ↔ (32767 < k ∨ k < -32768)) ∧
    ((s.finishArith rd k).flags.z = true ↔ sat 16 k = 0x0000#16) ∧
    ((s.finishArith rd k).flags.n = true ↔ (sat 16 k).toInt < 0) ∧
    KeepsRegsExcept s (s.finishArith rd k) rd ∧ KeepsData s (s.finishArith rd k) ∧
    KeepsRun s (s.finishArith rd k) := by
  obtain ⟨hv, hz, hn⟩ := arithFlags_effect k (sat 16 k)
  exact ⟨reg_setReg_same s rd _, hv, hz, hn, fun _ hq => reg_setReg_ne s _ hq,
    keepsData_of_dmem_eq (finishArith_dmem s rd k) (finishArith_config s rd k),
    finishArith_imem s rd k, finishArith_config s rd k, finishArith_rstN s rd k, finishArith_draws s rd k⟩

/-- Settles O9, from the end of the instructions with an exact result. -/
theorem addWritesTheSaturatedSumAndAllFlags : Obligations.AddWritesTheSaturatedSumAndAllFlags :=
  fun rd rs rt s =>
    ⟨decodeWord_groups 0x0#4 decodeWord_add rd rs rt, _, _, _, exec_add rd rs rt s, rfl, sat16_spec _,
      finishArith_effect s rd _⟩

/-- Settles O10, from the end of the instructions with an exact result. -/
theorem subWritesTheSaturatedDifferenceAndAllFlags : Obligations.SubWritesTheSaturatedDifferenceAndAllFlags :=
  fun rd rs rt s =>
    ⟨decodeWord_groups 0x1#4 decodeWord_sub rd rs rt, _, _, _, exec_sub rd rs rt s, rfl, sat16_spec _,
      finishArith_effect s rd _⟩

/-- Z and N as the exact result has them, because saturation keeps zero and sign. -/
theorem finishArith_flags_exact (s : State) (rd : RegNum) (k : Int) :
    ((s.finishArith rd k).flags.z = true ↔ k = 0) ∧ ((s.finishArith rd k).flags.n = true ↔ k < 0) := by
  obtain ⟨-, hz, hn⟩ := arithFlags_effect k (sat 16 k)
  exact ⟨hz.trans (sat16_eq_zero_iff k), hn.trans (toInt_sat16_neg_iff k)⟩

/-- Settles O36: each condition is a statement about the sign of the exact difference. -/
theorem conditionsAfterSubCompareSigned : Obligations.ConditionsAfterSubCompareSigned := by
  intro rd rs rt s
  obtain ⟨hz, hn⟩ := finishArith_flags_exact s rd ((s.reg rs).toInt - (s.reg rt).toInt)
  refine ⟨_, exec_sub rd rs rt s, ?_⟩
  simp only [condHolds_eq, condHolds_neq, condHolds_gt, condHolds_lt, condHolds_gte, condHolds_lte,
    ← Bool.not_eq_true, hz, hn]
  omega

end Sys2Proof.Proofs
end

section
/-!
PROOFS. RED: the signed sum of the eight fields is the unsigned one less 16 for each field whose top bit is set
(`41_compute.md` R104 to R106).
-/

namespace Sys2Proof.Proofs

open Sys2Proof.Machine Sys2Proof.Safety Sys2Proof.Laws

/-- How many of the four half-bytes of a word have their top bit set. -/
def topBits (v : Word) : Nat :=
  (nibble v 0).msb.toNat + (nibble v 1).msb.toNat + (nibble v 2).msb.toNat + (nibble v 3).msb.toNat

theorem toInt_nibble (v : Word) (j : Nat) :
    (nibble v j).toInt = ((nibble v j).toNat : Int) - 16 * ((nibble v j).msb.toNat : Int) := by
  rw [BitVec.toInt_eq_msb_cond]
  cases (nibble v j).msb <;> simp

/-- The top bit of a half-byte says whether it is at least 8. -/
theorem nibble_bounds (v : Word) (j : Nat) :
    8 * (nibble v j).msb.toNat ≤ (nibble v j).toNat ∧ (nibble v j).toNat ≤ 7 + 8 * (nibble v j).msb.toNat := by
  have hlt : (nibble v j).toNat < 16 := (nibble v j).isLt
  rw [BitVec.msb_eq_decide]
  by_cases h : 2 ^ (4 - 1) ≤ (nibble v j).toNat
  · simp only [h, decide_true, Bool.toNat_true]; omega
  · simp only [h, decide_false, Bool.toNat_false]; omega

theorem signedNibbleSum_eq (v : Word) :
    signedNibbleSum v = (unsignedNibbleSum v : Int) - 16 * (topBits v : Int) := by
  simp only [signedNibbleSum, unsignedNibbleSum, topBits, toInt_nibble]
  push_cast
  ring

theorem topBits_le (v : Word) : topBits v ≤ 4 := by
  have hle (b : Bool) : b.toNat ≤ 1 := Bool.toNat_le b
  have h0 := hle (nibble v 0).msb
  have h1 := hle (nibble v 1).msb
  have h2 := hle (nibble v 2).msb
  have h3 := hle (nibble v 3).msb
  unfold topBits
  omega

theorem unsignedNibbleSum_bounds (v : Word) :
    8 * topBits v ≤ unsignedNibbleSum v ∧ unsignedNibbleSum v ≤ 28 + 8 * topBits v := by
  have h0 := nibble_bounds v 0
  have h1 := nibble_bounds v 1
  have h2 := nibble_bounds v 2
  have h3 := nibble_bounds v 3
  unfold topBits unsignedNibbleSum
  omega

/-- The exact unsigned sum of the eight fields, and how many of them have their top bit set. -/
theorem redSums_bounds (a b : Word) :
    8 * (topBits a + topBits b) ≤ unsignedNibbleSum a + unsignedNibbleSum b ∧
    unsignedNibbleSum a + unsignedNibbleSum b ≤ 56 + 8 * (topBits a + topBits b) ∧
    topBits a + topBits b ≤ 8 := by
  have ha := unsignedNibbleSum_bounds a
  have hb := unsignedNibbleSum_bounds b
  have hta := topBits_le a
  have htb := topBits_le b
  omega

/-- The exact signed sum of the eight fields. -/
theorem signedSums_eq (a b : Word) : signedNibbleSum a + signedNibbleSum b =
    ((unsignedNibbleSum a + unsignedNibbleSum b : Nat) : Int) - 16 * ((topBits a + topBits b : Nat) : Int) := by
  rw [signedNibbleSum_eq, signedNibbleSum_eq]
  push_cast
  ring

/-- The signed setting: the exact sum, which 16 bits hold (R104). -/
theorem toInt_reduction_true (a b : Word) :
    (reduction true a b).toInt = signedNibbleSum a + signedNibbleSum b := by
  have hbounds := redSums_bounds a b
  have hsum := signedSums_eq a b
  exact BitVec.toInt_ofInt_eq_self (by decide) (by omega) (by omega)

/-- The unsigned setting: the 7-bit sum read as signed (R105). -/
theorem toInt_reduction_false (a b : Word) :
    (reduction false a b).toInt =
      if unsignedNibbleSum a + unsignedNibbleSum b < 64
      then ((unsignedNibbleSum a + unsignedNibbleSum b : Nat) : Int)
      else ((unsignedNibbleSum a + unsignedNibbleSum b : Nat) : Int) - 128 := by
  have hbounds := redSums_bounds a b
  rw [reduction, if_neg Bool.false_ne_true, BitVec.toInt_signExtend_of_le (by decide),
    BitVec.toInt_eq_toNat_cond, BitVec.toNat_ofNat, Nat.mod_eq_of_lt (by omega)]
  split <;> split <;> omega

/-- The eight fields in the order of R104: field by field, from the low end. -/
theorem signedNibbleSum_add (a b : Word) : signedNibbleSum a + signedNibbleSum b =
    (a.extractLsb' 0 4).toInt + (b.extractLsb' 0 4).toInt + (a.extractLsb' 4 4).toInt +
    (b.extractLsb' 4 4).toInt + (a.extractLsb' 8 4).toInt + (b.extractLsb' 8 4).toInt +
    (a.extractLsb' 12 4).toInt + (b.extractLsb' 12 4).toInt := by
  simp only [signedNibbleSum, nibble, Nat.mul_zero, Nat.mul_one, Nat.reduceMul]
  ring

/-- The same for the unsigned fields (R105). -/
theorem unsignedNibbleSum_add (a b : Word) : unsignedNibbleSum a + unsignedNibbleSum b =
    (a.extractLsb' 0 4).toNat + (b.extractLsb' 0 4).toNat + (a.extractLsb' 4 4).toNat +
    (b.extractLsb' 4 4).toNat + (a.extractLsb' 8 4).toNat + (b.extractLsb' 8 4).toNat +
    (a.extractLsb' 12 4).toNat + (b.extractLsb' 12 4).toNat := by
  simp only [unsignedNibbleSum, nibble, Nat.mul_zero, Nat.mul_one, Nat.reduceMul]
  ring

/-- Settles O12: the fields in the order of the statement, the two settings, and the end of the instructions
that write no flag. -/
theorem redSumsEightFieldsUnderEitherSetting : Obligations.RedSumsEightFieldsUnderEitherSetting := by
  intro rd rs rt s
  refine ⟨decodeWord_groups 0x2#4 decodeWord_red rd rs rt, _, _, exec_red rd rs rt s, fun hsigned => ?_,
    fun hunsigned => ⟨_, rfl, ?_⟩, finishPlain_effect s rd _⟩
  · rw [hsigned, toInt_reduction_true]
    exact signedNibbleSum_add (s.reg rs) (s.reg rt)
  · rw [hunsigned, toInt_reduction_false, unsignedNibbleSum_add]

/-- A value that seven bits hold is the sign extension of its low seven bits. -/
theorem exists_signExtend_of_small {r : Word} (hmin : -64 ≤ r.toInt) (hmax : r.toInt < 64) :
    ∃ x : BitVec 7, r = x.signExtend 16 := by
  refine ⟨BitVec.ofInt 7 r.toInt, BitVec.eq_of_toInt_eq ?_⟩
  rw [BitVec.toInt_signExtend_of_le (by decide),
    BitVec.toInt_ofInt_eq_self (by decide) (by omega) (by omega)]

/-- The bits of a sign extension from bit 6 on are all bit 6. -/
theorem getLsbD_signExtend_seven (x : BitVec 7) {i : Nat} (hi : 6 ≤ i) (hlt : i < 16) :
    (x.signExtend 16).getLsbD i = x.getLsbD 6 := by
  rw [BitVec.getLsbD_signExtend, decide_eq_true hlt, Bool.true_and]
  split
  next h =>
    obtain rfl : i = 6 := by omega
    rfl
  next => exact BitVec.msb_eq_getLsbD_last x

/-- Settles O13, from the two results as integers and the bounds of the unsigned sum. -/
theorem redSumFitsSevenBits : Obligations.RedSumFitsSevenBits := by
  intro a b
  have hbounds := redSums_bounds a b
  have hsum := signedSums_eq a b
  have htrue := toInt_reduction_true a b
  refine ⟨by omega, fun i hi hlt => ?_, by omega, ?_⟩
  · obtain ⟨x, hx⟩ := exists_signExtend_of_small (r := reduction true a b) (by omega) (by omega)
    rw [hx, getLsbD_signExtend_seven x hi hlt, getLsbD_signExtend_seven x le_rfl (by decide)]
  · have hfalse := toInt_reduction_false a b
    rw [BitVec.toInt_eq_toNat_cond] at hfalse
    split at hfalse <;> split at hfalse <;> omega

/-- The low four bits of a word are its signed value modulo 16. -/
theorem extractLsb'_zero_four_of_toInt {x y : Word} (h : x.toInt % 16 = y.toInt % 16) :
    x.extractLsb' 0 4 = y.extractLsb' 0 4 := by
  have hmod (z : Word) : ((z.extractLsb' 0 4).toNat : Int) = z.toInt % 16 := by
    rw [BitVec.extractLsb'_toNat, BitVec.toInt_eq_toNat_cond, Nat.shiftRight_zero]
    split <;> omega
  apply BitVec.eq_of_toNat_eq
  have hx := hmod x
  have hy := hmod y
  omega

/-- The mask 0x8888 takes the top bit of each half-byte. -/
theorem and_8888_eq_pack4 (v : Word) : v &&& 0x8888#16 =
    pack4 (nibble v 3 &&& 8#4) (nibble v 2 &&& 8#4) (nibble v 1 &&& 8#4) (nibble v 0 &&& 8#4) := by
  have hmask : 0x8888#16 = pack4 8#4 8#4 8#4 8#4 := by decide
  have hv : v = pack4 (nibble v 3) (nibble v 2) (nibble v 1) (nibble v 0) := (pack4_fields v).symm
  calc v &&& 0x8888#16
    _ = pack4 (nibble v 3) (nibble v 2) (nibble v 1) (nibble v 0) &&& pack4 8#4 8#4 8#4 8#4 := by
      rw [← hv, hmask]
    _ = _ := by
      unfold pack4
      rw [BitVec.and_append, BitVec.and_append, BitVec.and_append]

/-- Words of four groups are equal when their groups are. -/
theorem pack4_inj {a b c d a' b' c' d' : BitVec 4} :
    pack4 a b c d = pack4 a' b' c' d' ↔ a = a' ∧ b = b' ∧ c = c' ∧ d = d' := by
  refine ⟨fun h => ⟨?_, ?_, ?_, ?_⟩, fun ⟨ha, hb, hc, hd⟩ => by rw [ha, hb, hc, hd]⟩
  · simpa using congrArg (field · 12 4) h
  · simpa using congrArg (field · 8 4) h
  · simpa using congrArg (field · 4 4) h
  · simpa using congrArg (field · 0 4) h

theorem and_eight_eq_zero_iff (x : BitVec 4) : x &&& 8#4 = 0#4 ↔ x.msb.toNat = 0 := by revert x; decide

theorem and_eight_eq_eight_iff (x : BitVec 4) : x &&& 8#4 = 8#4 ↔ x.msb.toNat = 1 := by revert x; decide

/-- No field has its top bit set. -/
theorem and_8888_eq_zero_iff (v : Word) : v &&& 0x8888#16 = 0x0000#16 ↔ topBits v = 0 := by
  have hzero : 0x0000#16 = pack4 0#4 0#4 0#4 0#4 := by decide
  simp only [and_8888_eq_pack4, hzero, pack4_inj, and_eight_eq_zero_iff, topBits]
  omega

/-- Every field has its top bit set. -/
theorem and_8888_eq_8888_iff (v : Word) : v &&& 0x8888#16 = 0x8888#16 ↔ topBits v = 4 := by
  have hall : 0x8888#16 = pack4 8#4 8#4 8#4 8#4 := by decide
  have hle (j : Nat) : (nibble v j).msb.toNat ≤ 1 := Bool.toNat_le _
  have h0 := hle 0
  have h1 := hle 1
  have h2 := hle 2
  have h3 := hle 3
  rw [and_8888_eq_pack4, hall, pack4_inj]
  simp only [and_eight_eq_eight_iff, topBits]
  omega

/-- Settles O14: the results differ by 16 for each top bit, less the 128 that the unsigned sum loses from 64 on,
which is a multiple of 16 and is nothing only for none or all of the top bits. -/
theorem redSettingsAgreeExactlyAtNoneOrAllTopBits : Obligations.RedSettingsAgreeExactlyAtNoneOrAllTopBits := by
  intro a b
  have hbounds := redSums_bounds a b
  have hta := topBits_le a
  have htb := topBits_le b
  have htrue := toInt_reduction_true a b
  rw [signedSums_eq] at htrue
  have hfalse := toInt_reduction_false a b
  constructor
  · apply extractLsb'_zero_four_of_toInt
    split at hfalse <;> omega
  · rw [and_8888_eq_zero_iff, and_8888_eq_zero_iff, and_8888_eq_8888_iff, and_8888_eq_8888_iff,
      ← BitVec.toInt_inj]
    split at hfalse <;> omega

end Sys2Proof.Proofs
end

section
/-!
PROOFS. Data memory and instructions: what a load after a store reads, what nothing wrote, and which
instructions touch data memory at all (`10_state.md` R32, R36, `20_memory.md` R52). The two load-immediates in
sequence (`42_memory_instructions.md` R125).
-/

namespace Sys2Proof.Proofs

open Sys2Proof.Machine Sys2Proof.Safety Sys2Proof.Laws

/-- What an even address reads after a write to an even address, in one equation. -/
theorem memRead_memWrite (s : State) {a b : Word} (v : Word) (ha : a.toNat % 2 = 0) (hb : b.toNat % 2 = 0) :
    (s.memWrite a v).memRead b = if a = b then v else s.memRead b := by
  split
  next h => exact h ▸ memRead_memWrite_same s v ha
  next h => exact memRead_memWrite_ne s v ha hb (Ne.symm h)

/-- Settles O24: SW changes no base register, so the load reads at its own address the memory just written. -/
theorem loadAfterStoreSeesTheStore : Obligations.LoadAfterStoreSeesTheStore := by
  intro rt rs rd rb off off' s
  refine ⟨_, _, exec_sw rt rs off s, exec_lw rd rb off' _, ?_⟩
  rw [finishPlain_reg, reg_setReg_same]
  congr 1
  exact memRead_memWrite s (s.reg rt) (effectiveAddress_even _ off) (effectiveAddress_even _ off')

/-- Settles O25: both states read the free value of the address. -/
theorem unwrittenDataReadsOneStableValue : Obligations.UnwrittenDataReadsOneStableValue :=
  fun s s' _ ha h0 h1 h0' h1' =>
    (readHalf_unlisted s.config.byteOrder ha h0 h1).trans
      (readHalf_unlisted s'.config.byteOrder ha h0' h1').symm

/-- A byte in each place, the high one last. -/
theorem withHighByte_withLowByte (v : Word) (high low : BitVec 8) :
    withHighByte (withLowByte v low) high = high ++ low := by
  rw [withHighByte, withLowByte, BitVec.extractLsb'_append_eq_right]

/-- A byte in each place, the low one last. -/
theorem withLowByte_withHighByte (v : Word) (high low : BitVec 8) :
    withLowByte (withHighByte v high) low = high ++ low := by
  rw [withHighByte, withLowByte, BitVec.extractLsb'_append_eq_left]

/-- The register an instruction of this ending writes, when it is not `$0`. -/
theorem reg_finishPlain_of_ne {rd : RegNum} (hrd : rd ≠ 0#4) (s : State) (r : Word) :
    (s.finishPlain rd r).reg rd = r :=
  (reg_setReg_same s rd r).trans (if_neg hrd)

/-- Settles O28: each of the two leaves the other's byte. -/
theorem llbAndLhbInEitherOrderLoadAConstant : Obligations.LlbAndLhbInEitherOrderLoadAConstant := by
  intro rd c s hrd
  have hc : c.extractLsb' 8 8 ++ c.extractLsb' 0 8 = c := BitVec.extractLsb'_append_extractLsb'
  refine ⟨⟨_, _, exec_llb rd _ s, exec_lhb rd _ _, ?_⟩, ⟨_, _, exec_lhb rd _ s, exec_llb rd _ _, ?_⟩⟩
  · rw [reg_finishPlain_of_ne hrd, reg_finishPlain_of_ne hrd, withHighByte_withLowByte, hc]
  · rw [reg_finishPlain_of_ne hrd, reg_finishPlain_of_ne hrd, withLowByte_withHighByte, hc]

/-- An instruction other than SW keeps data memory. -/
theorem exec_keepsData {i : Instr} {s t : State} (hi : ∀ rt rs off4, i ≠ .sw rt rs off4)
    (ht : exec i s = .next t) : KeepsData s t := by
  obtain ⟨-, hconfig, -, -⟩ := exec_keepsRun i ht
  obtain hsame | ⟨rt, rs, off4, hsw, -⟩ := exec_dmem i ht
  · exact keepsData_of_dmem_eq hsame hconfig
  · exact absurd hsw (hi rt rs off4)

/-- An instruction other than LW, run on another data memory: the same state, but for data memory. -/
theorem exec_with_dmem {i : Instr} {s t : State} (m : Memory) (hi : ∀ rt rs off4, i ≠ .lw rt rs off4)
    (ht : exec i s = .next t) :
    ∃ m' : Memory, exec i { s with dmem := m } = .next { t with dmem := m' } := by
  cases i with
  | lw rt rs off4 => exact absurd rfl (hi rt rs off4)
  | _ => cases ht; exact ⟨_, rfl⟩

/-- SW leaves the stored halfword at its effective address, whatever data memory held, and nothing else. -/
theorem exec_sw_effect {rt rs : RegNum} {off4 : BitVec 4} {s t : State}
    (ht : exec (.sw rt rs off4) s = .next t) :
    t.memRead (effectiveAddress (s.reg rs) off4) = s.reg rt ∧
    KeepsDataOutside s t (effectiveAddress (s.reg rs) off4) := by
  cases ht
  obtain ⟨hread, hkeeps, -⟩ := memWrite_advance_effect s (s.reg rt) (effectiveAddress_even (s.reg rs) off4)
  exact ⟨hread, hkeeps⟩

/-- Settles O40: SW is the one instruction whose effect on data memory is a write, and that write is the same on
any data memory. -/
theorem onlySwChangesAndOnlyLwReadsDataMemory : Obligations.OnlySwChangesAndOnlyLwReadsDataMemory := by
  intro i s
  obtain ⟨t, ht⟩ := exec_completes i s
  refine ⟨t, ht, fun hi => exec_keepsData hi ht, fun hi m => ?_⟩
  obtain ⟨m', ht'⟩ := exec_with_dmem m hi ht
  refine ⟨_, ht', rfl, fun rt rs off4 hsw => ?_⟩
  subst hsw
  obtain ⟨hread, -⟩ := exec_sw_effect ht
  obtain ⟨hread', hkeeps'⟩ := exec_sw_effect ht'
  exact ⟨hread'.trans hread.symm, hkeeps'⟩

end Sys2Proof.Proofs
end

section
/-!
PROOFS. The memory a host lays out from an image: each word at its address, and nothing else
(`60_exceptions.md` R164, `00_scope.md` R8).
-/

namespace Sys2Proof.Proofs

open Sys2Proof.Machine Sys2Proof.Laws

/-- A well-formed image, word by word. -/
theorem wellFormed_cons {a : Nat} {w : Word} {rest : Image} : Image.wellFormed ((a, w) :: rest) = true ↔
    a % 2 = 0 ∧ a < 65536 ∧ (∀ p ∈ rest, p.1 ≠ a) ∧ Image.wellFormed rest = true := by
  simp only [Image.wellFormed, Image.allEven, Image.inRange, Image.noRepeat, List.all_cons, Bool.and_eq_true,
    beq_iff_eq, decide_eq_true_eq, List.all_eq_true, bne_iff_ne]
  tauto

/-- Every address of a well-formed image is even and fits 16 bits. -/
theorem even_and_lt_of_wellFormed {img : Image} (himg : img.wellFormed = true) {p : Nat × Word} (hp : p ∈ img) :
    p.1 % 2 = 0 ∧ p.1 < 65536 := by
  simp only [Image.wellFormed, Image.allEven, Image.inRange, Bool.and_eq_true, List.all_eq_true, beq_iff_eq,
    decide_eq_true_eq] at himg
  obtain ⟨⟨heven, hlt⟩, -⟩ := himg
  exact ⟨heven p hp, hlt p hp⟩

theorem toNat_ofNat_of_lt {a : Nat} (ha : a < 65536) : (BitVec.ofNat 16 a).toNat = a :=
  (BitVec.toNat_ofNat a 16).trans (Nat.mod_eq_of_lt ha)

/-- Each word of an image is listed at its address. -/
theorem half?_toMemory_of_mem (o : ByteOrder) {img : Image} (himg : img.wellFormed = true) {p : Nat × Word}
    (hp : p ∈ img) : (Image.toMemory o img).half? o (BitVec.ofNat 16 p.1) = some p.2 := by
  obtain ⟨hpeven, hplt⟩ := even_and_lt_of_wellFormed himg hp
  induction img with
  | nil => cases hp
  | cons q rest ih =>
    obtain ⟨a, w⟩ := q
    obtain ⟨heven, hlt, hne, hrest⟩ := wellFormed_cons.mp himg
    have hword : (BitVec.ofNat 16 a).toNat % 2 = 0 := by rw [toNat_ofNat_of_lt hlt, heven]
    have hpword : (BitVec.ofNat 16 p.1).toNat % 2 = 0 := by rw [toNat_ofNat_of_lt hplt, hpeven]
    obtain rfl | hmem := List.mem_cons.mp hp
    · exact half?_setHalf_same o _ w hword
    · have hpa : BitVec.ofNat 16 p.1 ≠ BitVec.ofNat 16 a := fun h => hne p hmem <| by
        rw [← toNat_ofNat_of_lt hplt, h, toNat_ofNat_of_lt hlt]
      rw [Image.toMemory, half?_setHalf_ne o _ w hword hpword hpa, ih hrest hmem]

/-- An image lists neither byte of a halfword at which it has no word. -/
theorem get?_toMemory_of_not_mem (o : ByteOrder) {img : Image} (himg : img.wellFormed = true) {n : Nat}
    (hn : n % 2 = 0) (hne : ∀ p ∈ img, p.1 ≠ n) :
    (Image.toMemory o img).get? n = none ∧ (Image.toMemory o img).get? (n + 1) = none := by
  induction img with
  | nil => exact ⟨rfl, rfl⟩
  | cons q rest ih =>
    obtain ⟨a, w⟩ := q
    obtain ⟨heven, hlt, -, hrest⟩ := wellFormed_cons.mp himg
    obtain ⟨hlow, hhigh⟩ := ih hrest fun p hp => hne p (List.mem_cons_of_mem _ hp)
    have han : a ≠ n := hne (a, w) List.mem_cons_self
    have hword : (BitVec.ofNat 16 a).toNat = a := toNat_ofNat_of_lt hlt
    rw [Image.toMemory, get?_setHalf o _ w (by omega), get?_setHalf o _ w (by omega), hword]
    refine ⟨?_, ?_⟩
    · rw [if_neg (by omega), if_neg (by omega), hlow]
    · rw [if_neg (by omega), if_neg (by omega), hhigh]

/-- A halfword a memory lists is the one it reads. -/
theorem readHalf_of_half? {o : ByteOrder} {m : Memory} {a w : Word} (h : m.half? o a = some w) :
    m.readHalf o a = w := by
  unfold Memory.half? at h
  split at h
  next b0 b1 h0 h1 =>
    rw [Memory.readHalf, Memory.readByte, Memory.readByte, h0, h1]
    exact Option.some.inj h
  next => cases h

/-- A memory lists no halfword where it lists no low byte. -/
theorem half?_of_get?_none {o : ByteOrder} {m : Memory} {a : Word} (h : m.get? a.toNat = none) :
    m.half? o a = none := by
  rw [Memory.half?, h]

/-- Settles O51: both memories are laid out from the image, which lists its words and no other halfword. -/
theorem loadedImagesAreWhatTheMachineReads : Obligations.LoadedImagesAreWhatTheMachineReads := by
  refine fun s img himg => ⟨fun p hp => ?_, fun a ha hne => ?_⟩
  · have hlisted := half?_toMemory_of_mem s.config.byteOrder himg hp
    exact ⟨hlisted, readHalf_of_half? hlisted⟩
  · obtain ⟨hlow, hhigh⟩ := get?_toMemory_of_not_mem s.config.byteOrder himg ha hne
    exact ⟨half?_of_get?_none hlow, readHalf_unlisted s.config.byteOrder ha hlow hhigh⟩

end Sys2Proof.Proofs
end

section
/-!
PROOFS. Byte order is unobservable (`20_memory.md` R48): what a step reads is the same in two states that differ
only in it, and every operation on both keeps them so.
-/

namespace Sys2Proof.Proofs

open Sys2Proof.Machine Sys2Proof.Safety Sys2Proof.Laws

variable {s s' : State}

/-! ## What an instruction reads is the same -/

theorem pc_sameButByteOrder (h : SameButByteOrder s s') : s'.pc = s.pc := by
  obtain ⟨-, hpc, -⟩ := h
  exact hpc

theorem flags_sameButByteOrder (h : SameButByteOrder s s') : s'.flags = s.flags := by
  obtain ⟨-, -, hflags, -⟩ := h
  exact hflags

theorem rstN_sameButByteOrder (h : SameButByteOrder s s') : s'.rstN = s.rstN := by
  obtain ⟨-, -, -, hrst, -⟩ := h
  exact hrst

theorem reg_sameButByteOrder (h : SameButByteOrder s s') (q : RegNum) : s'.reg q = s.reg q := by
  obtain ⟨hregs, -⟩ := h
  simp only [State.reg, hregs]

theorem memRead_sameButByteOrder (h : SameButByteOrder s s') {a : Word} (ha : a.toNat % 2 = 0) :
    s'.memRead a = s.memRead a := by
  obtain ⟨-, -, -, -, -, -, hmem⟩ := h
  exact (hmem a ha).2

theorem imemRead_sameButByteOrder (h : SameButByteOrder s s') {a : Word} (ha : a.toNat % 2 = 0) :
    s'.imemRead a = s.imemRead a := by
  obtain ⟨-, -, -, -, -, -, hmem⟩ := h
  exact (hmem a ha).1

/-- The parameters that a meaning reads. -/
theorem config_sameButByteOrder (h : SameButByteOrder s s') :
    s'.config.bshift = s.config.bshift ∧ s'.config.redSigned = s.config.redSigned := by
  obtain ⟨-, -, -, -, -, hconfig, -⟩ := h
  rw [hconfig]
  exact ⟨rfl, rfl⟩

theorem fetch_sameButByteOrder (h : SameButByteOrder s s') : s'.fetch = s.fetch := by
  have hpc := pc_sameButByteOrder h
  obtain ⟨hodd, hf⟩ | ⟨heven, hnone, hf⟩ | ⟨heven, w, hw, hf⟩ := fetch_cases s
  · rw [hf, ← hpc]
    exact fetch_of_odd (hpc ▸ hodd)
  · have hnone' : s'.imemRead s'.pc = none := by rw [hpc, imemRead_sameButByteOrder h heven, hnone]
    rw [hf, ← hpc]
    exact fetch_of_imemRead_none (hpc ▸ heven) hnone'
  · have hw' : s'.imemRead s'.pc = some w := by rw [hpc, imemRead_sameButByteOrder h heven, hw]
    rw [hf]
    exact fetch_of_imemRead_some (hpc ▸ heven) hw'

/-! ## Every operation keeps the two states so -/

theorem sameButByteOrder_setReg (h : SameButByteOrder s s') (r : RegNum) (v : Word) :
    SameButByteOrder (s.setReg r v) (s'.setReg r v) := by
  obtain ⟨hregs, hpc, hflags, hrst, hdraws, hconfig, hmem⟩ := h
  exact ⟨by simp only [State.setReg, hregs], hpc, hflags, hrst, hdraws, hconfig, hmem⟩

theorem sameButByteOrder_setPc (h : SameButByteOrder s s') (v : Word) :
    SameButByteOrder (s.setPc v) (s'.setPc v) := by
  obtain ⟨hregs, -, hflags, hrst, hdraws, hconfig, hmem⟩ := h
  exact ⟨hregs, rfl, hflags, hrst, hdraws, hconfig, hmem⟩

theorem sameButByteOrder_advance (h : SameButByteOrder s s') :
    SameButByteOrder s.advance s'.advance := by
  rw [State.advance, State.advance, pc_sameButByteOrder h]
  exact sameButByteOrder_setPc h _

theorem sameButByteOrder_setFlags (h : SameButByteOrder s s') (f : Flags) :
    SameButByteOrder (s.setFlags f) (s'.setFlags f) := by
  obtain ⟨hregs, hpc, -, hrst, hdraws, hconfig, hmem⟩ := h
  exact ⟨hregs, hpc, rfl, hrst, hdraws, hconfig, hmem⟩

/-- A store places its two bytes as each order says, and either order reads them back. -/
theorem sameButByteOrder_memWrite (h : SameButByteOrder s s') {a : Word} (v : Word) (ha : a.toNat % 2 = 0) :
    SameButByteOrder (s.memWrite a v) (s'.memWrite a v) := by
  obtain ⟨hregs, hpc, hflags, hrst, hdraws, hconfig, hmem⟩ := h
  refine ⟨hregs, hpc, hflags, hrst, hdraws, hconfig, fun b hb => ?_⟩
  obtain ⟨himem, hread⟩ := hmem b hb
  exact ⟨himem, by rw [memRead_memWrite s' v ha hb, memRead_memWrite s v ha hb, hread]⟩

theorem sameButByteOrder_finishPlain (h : SameButByteOrder s s') (rd : RegNum) (r : Word) :
    SameButByteOrder (s.finishPlain rd r) (s'.finishPlain rd r) :=
  sameButByteOrder_advance (sameButByteOrder_setReg h rd r)

theorem sameButByteOrder_finishLogic (h : SameButByteOrder s s') (rd : RegNum) (r : Word) :
    SameButByteOrder (s.finishLogic rd r) (s'.finishLogic rd r) := by
  rw [State.finishLogic, State.finishLogic, flags_sameButByteOrder h]
  exact sameButByteOrder_advance (sameButByteOrder_setFlags (sameButByteOrder_setReg h rd r) _)

theorem sameButByteOrder_finishArith (h : SameButByteOrder s s') (rd : RegNum) (k : Int) :
    SameButByteOrder (s.finishArith rd k) (s'.finishArith rd k) :=
  sameButByteOrder_advance (sameButByteOrder_setFlags (sameButByteOrder_setReg h rd _) _)

theorem memRead_resetEvent (s : State) (a : Word) : (resetEvent s).memRead a = s.memRead a := by
  rw [State.memRead, State.memRead, resetEvent_dmem, resetEvent_config]

theorem imemRead_resetEvent (s : State) (a : Word) : (resetEvent s).imemRead a = s.imemRead a := by
  rw [State.imemRead, State.imemRead, resetEvent_imem, resetEvent_config]

/-- The Reset event reads no byte order. -/
theorem sameButByteOrder_resetEvent (h : SameButByteOrder s s') :
    SameButByteOrder (resetEvent s) (resetEvent s') := by
  obtain ⟨-, -, -, -, hdraws, hconfig, hmem⟩ := h
  refine ⟨?_, ?_, ?_, ?_, ?_, ?_, fun a ha => ?_⟩
  · rw [resetEvent_regs, resetEvent_regs, hdraws, hconfig]
    rfl
  · rw [resetEvent_pc, resetEvent_pc]
  · rw [resetEvent, resetEvent, hdraws, hconfig]
  · rw [resetEvent_rstN, resetEvent_rstN]
  · rw [resetEvent_draws, resetEvent_draws, hdraws]
  · rw [resetEvent_config, resetEvent_config]
    exact hconfig
  · rw [imemRead_resetEvent, imemRead_resetEvent, memRead_resetEvent, memRead_resetEvent]
    exact hmem a ha

/-! ## The step -/

/-- An instruction run in both states completes in both and keeps them so. -/
theorem exec_sameButByteOrder {i : Instr} {t : State} (h : SameButByteOrder s s') (ht : exec i s = .next t) :
    ∃ t', exec i s' = .next t' ∧ SameButByteOrder t t' := by
  have hreg := reg_sameButByteOrder h
  obtain ⟨hbshift, hred⟩ := config_sameButByteOrder h
  cases i with
  | add rd | sub rd =>
    cases ht
    refine ⟨_, rfl, ?_⟩
    simp only [hreg]
    exact sameButByteOrder_finishArith h rd _
  | xor rd | sll rd | sra rd | ror rd =>
    cases ht
    refine ⟨_, rfl, ?_⟩
    simp only [hreg]
    exact sameButByteOrder_finishLogic h rd _
  | paddsb rd | lhb rd | llb rd =>
    cases ht
    refine ⟨_, rfl, ?_⟩
    simp only [hreg]
    exact sameButByteOrder_finishPlain h rd _
  | red rd rs rt =>
    cases ht
    refine ⟨_, rfl, ?_⟩
    rw [hred, hreg, hreg]
    exact sameButByteOrder_finishPlain h rd _
  | lw rt rs off4 =>
    cases ht
    refine ⟨_, rfl, ?_⟩
    rw [hreg, memRead_sameButByteOrder h (effectiveAddress_even _ _)]
    exact sameButByteOrder_finishPlain h rt _
  | sw rt rs off4 =>
    cases ht
    refine ⟨_, rfl, ?_⟩
    rw [hreg, hreg]
    exact sameButByteOrder_advance (sameButByteOrder_memWrite h _ (effectiveAddress_even _ _))
  | b c imm9 =>
    cases ht
    refine ⟨_, rfl, ?_⟩
    rw [flags_sameButByteOrder h, pc_sameButByteOrder h, hbshift]
    exact sameButByteOrder_setPc h _
  | br c rs =>
    cases ht
    refine ⟨_, rfl, ?_⟩
    rw [flags_sameButByteOrder h, pc_sameButByteOrder h, hreg]
    exact sameButByteOrder_setPc h _
  | pcs rd =>
    cases ht
    refine ⟨_, rfl, ?_⟩
    rw [pc_sameButByteOrder h]
    exact sameButByteOrder_finishPlain h rd _
  | hlt =>
    cases ht
    exact ⟨s', rfl, h⟩

/-- Settles O46: the fetch is the same, so the step is the same instruction, fault or reset in both states. -/
theorem byteOrderIsUnobservable : Obligations.ByteOrderIsUnobservable := by
  intro s s' h
  have hrst := rstN_sameButByteOrder h
  have hfetch := fetch_sameButByteOrder h
  refine ⟨by rw [State.hltPin, State.hltPin, hfetch], fun t ht => ?_, fun f hf => ?_⟩
  · obtain ⟨hr, rfl⟩ | ⟨hr, i, hi, ht⟩ := step_next_cases ht
    · exact ⟨_, step_of_rstN_low (hrst.trans hr), sameButByteOrder_resetEvent h⟩
    · rw [step_of_fetch_ok (hrst.trans hr) (hfetch.trans hi)]
      exact exec_sameButByteOrder h ht
  · obtain ⟨hr, hf⟩ := step_eq_fault_iff.mp hf
    exact step_of_fetch_error (hrst.trans hr) (hfetch.trans hf)

end Sys2Proof.Proofs
end
